-- ==== Sys2Proof/Word.lean ====
section
/-! DEFINITION. The one word of the machine: a register, a memory cell, an operand byte, an opcode byte, an address and
the program counter are each an unsigned value of 8 bits (00_scope.md rule R7). -/

namespace Sys2Proof

/-- An 8-bit unsigned value, bit 7 the most significant (00_scope.md rules R6, R7). -/
abbrev Byte := BitVec 8

end Sys2Proof
end

