-- ==== Sys2Proof/Syntax.lean ====
section
/-! DEFINITION. The instructions of the CORE ISA: one constructor per row of spec/opcode_table.json, in the source's
order (30_encoding.md rule R78). -/

namespace Sys2Proof

/-- An instruction with its operand bytes as they stand in memory.

A register operand is the WHOLE operand byte: a byte of 8..255 "is not a different instruction; it is this instruction
faulting" (30_encoding.md rules R76, R78), so the byte is kept and the meaning checks it. -/
inductive Instr where
  /-- `LDI regA, immediate` (41_load_immediate_and_output.md rule R110). -/
  | ldi (a imm : Byte)
  /-- `PRN regA` (41_load_immediate_and_output.md rule R111). -/
  | prn (a : Byte)
  /-- `HLT` (42_halt.md rule R115). -/
  | hlt
  /-- `MUL regA, regB` (43_alu.md rule R120). -/
  | mul (a b : Byte)
  /-- `ADD regA, regB` (43_alu.md rule R121). -/
  | add (a b : Byte)
  /-- `PUSH regA` (44_stack.md rule R130). -/
  | push (a : Byte)
  /-- `POP regA` (44_stack.md rule R132). -/
  | pop (a : Byte)
  /-- `CALL regA` (45_call_return.md rule R140). -/
  | call (a : Byte)
  /-- `RET` (45_call_return.md rule R142). -/
  | ret
  deriving DecidableEq, Repr

end Sys2Proof
end

