-- ==== Sys2Proof/Decode.lean ====
section
/-! DEFINITION. Decoding and encoding (30_encoding.md): the opcode map as a list of rows, the operand count, the engine's
decoder of the three fetched bytes, a decoder of a byte stream that rejects by name, and the encoder. -/

namespace Sys2Proof

/-- One row of the opcode map: the whole opcode byte selects the instruction, and the two bytes after it are handed to
it, used or not (30_encoding.md rules R71, R75, R78; the table's `mask` is 255 in every row). -/
structure OpRow where
  mnemonic : String
  opcode : Byte
  build : Byte → Byte → Instr

/-- The complete opcode map in the source's order (30_encoding.md rule R78, spec/opcode_table.json). -/
def opcodeTable : List OpRow := [
  ⟨"LDI",  0b10000010#8, fun a b => .ldi a b⟩,
  ⟨"PRN",  0b01000111#8, fun a _ => .prn a⟩,
  ⟨"HLT",  0b00000001#8, fun _ _ => .hlt⟩,
  ⟨"MUL",  0b10100010#8, fun a b => .mul a b⟩,
  ⟨"ADD",  0b10100000#8, fun a b => .add a b⟩,
  ⟨"PUSH", 0b01000101#8, fun a _ => .push a⟩,
  ⟨"POP",  0b01000110#8, fun a _ => .pop a⟩,
  ⟨"CALL", 0b01010000#8, fun a _ => .call a⟩,
  ⟨"RET",  0b00010001#8, fun _ _ => .ret⟩]

/-- The operand count `n`, bits 7:6 of the opcode byte: `(IR >> 6) & 0b11` (30_encoding.md rules R70, R71). -/
def operandCount (ir : Byte) : Nat := ((ir >>> 6) &&& 0b11).toNat

/-- The instruction spelled by the opcode byte `ir` and the two bytes after it, or `none` where `ir` is one of the 247
unknown opcodes (30_encoding.md rules R75, R80, R83; 40_engine_cycle.md rule R94). -/
def decodeWindow (ir a b : Byte) : Option Instr :=
  (opcodeTable.find? fun row => row.opcode == ir).map fun row => row.build a b

/-- Why a sequence of bytes spells no instruction (log 24: the spec names the second reason only). -/
inductive DecodeError where
  /-- The sequence is empty: there is no opcode byte. -/
  | noBytes
  /-- The opcode byte is none of the nine (30_encoding.md rule R80). -/
  | unknownOpcode (ir : Byte)
  /-- The opcode is known and the sequence ends before its operand bytes do (30_encoding.md rule R70). -/
  | truncated (ir : Byte)
  deriving DecidableEq, Repr

/-- Decoding of a byte stream, total on any bytes: the instruction at its head and the bytes after it. The length is
`1 + n` (30_encoding.md rules R70, R83). A missing byte is offered to the row as 0 only to look the opcode up; a stream
too short for its operands is rejected. -/
def decode : List Byte → Except DecodeError (Instr × List Byte)
  | [] => .error .noBytes
  | ir :: rest =>
    match decodeWindow ir (rest.getD 0 0) (rest.getD 1 0) with
    | none => .error (.unknownOpcode ir)
    | some i => if rest.length < operandCount ir then .error (.truncated ir) else .ok (i, rest.drop (operandCount ir))

/-- The opcode byte of an instruction (30_encoding.md rules R78, R86). -/
def opcodeByte : Instr → Byte
  | .ldi _ _ => 0x82#8
  | .prn _ => 0x47#8
  | .hlt => 0x01#8
  | .mul _ _ => 0xA2#8
  | .add _ _ => 0xA0#8
  | .push _ => 0x45#8
  | .pop _ => 0x46#8
  | .call _ => 0x50#8
  | .ret => 0x11#8

/-- The operand bytes of an instruction in memory order (30_encoding.md rule R72). -/
def operandBytes : Instr → List Byte
  | .ldi a imm => [a, imm]
  | .prn a => [a]
  | .hlt => []
  | .mul a b => [a, b]
  | .add a b => [a, b]
  | .push a => [a]
  | .pop a => [a]
  | .call a => [a]
  | .ret => []

/-- The bytes of an instruction, the opcode byte at the lowest address (30_encoding.md rules R57, R72, R86). -/
def encode (i : Instr) : List Byte := opcodeByte i :: operandBytes i

/-- The instruction's length in bytes, `1 + n` (30_encoding.md rule R70). -/
def Instr.length (i : Instr) : Nat := 1 + operandCount (opcodeByte i)

/-- The three bytes of a word numbered as spec/opcode_table.json numbers it: bits 7..0 are the byte at `p`, bits 15..8
the byte at `p + 1`, bits 23..16 the byte at `p + 2`; every bit from `nbits` up is 0. -/
def tableBytes (nbits w : Nat) : List Byte :=
  let v := w % 2 ^ nbits
  [BitVec.ofNat 8 v, BitVec.ofNat 8 (v / 256), BitVec.ofNat 8 (v / 65536)]

/-- The instruction the decoder reads from a table word. -/
def decodeTableWord (nbits w : Nat) : Option Instr :=
  match decode (tableBytes nbits w) with
  | .ok (i, _) => some i
  | .error _ => none

end Sys2Proof
end

