-- ==== Sys2Proof/Config.lean ====
section
/-! DEFINITION. The parameters of the hardware with the values the spec gives them (00_scope.md rule R5), and the one
point of the boundary that the spec leaves open. -/

namespace Sys2Proof.Config

/-- `MEM_CELLS`: the number of memory cells (00_scope.md rule R5, 20_memory.md rule R50). -/
def memCells : Nat := 256

/-- `ADDR_MAX`: the highest legal address; `ADDR_MIN` is 0 (00_scope.md rule R5). -/
def addrMax : Int := 255

/-- `SP_RESET`: the reset value of register 7, 0xF4 (00_scope.md rule R5, 10_state.md rule R40). -/
def spReset : Byte := 0xF4#8

/-- `PC_RESET`: the reset value of the program counter (00_scope.md rule R5, 10_state.md rule R40). -/
def pcReset : Byte := 0#8

/-- `LOAD_BASE`: the address of the first image byte (00_scope.md rule R5, 70_reset_and_hazards.md rule R184). -/
def loadBase : Nat := 0

/-- What a cell that nothing has written reads as: every cell is 0 after reset (20_memory.md rule R52). -/
def unlistedByte : Byte := 0#8

/-- FREE VALUE of the boundary: whether the loader accepts a base-2 token of this many digits, asked only for a count
other than eight. 30_encoding.md rule R87: the source does not say "whether fewer than eight digits are accepted".
DESIGN CHOICE, log 21: nothing constrains it. The core does not depend on it. -/
opaque acceptsDigitCount : Nat → Bool

end Sys2Proof.Config
end

