-- ==== Sys2Proof/Machine/State.lean ====
section
/-! DEFINITION. The architectural state of the CORE, `(x, pc, mem, run, fault, out)` (10_state.md rule R20), as plain
data, the reasons a step can end without a next state, and the state after reset (10_state.md rule R40). -/

namespace Sys2Proof.Machine

/-- The eight register names (10_state.md rule R21); `r7` is the stack pointer (rule R24). -/
inductive Reg where
  | r0 | r1 | r2 | r3 | r4 | r5 | r6 | r7
  deriving DecidableEq, Repr

/-- The register file: 8 registers of 8 bits, none hardwired, no banks (10_state.md rule R21). -/
structure RegFile where
  r0 : Byte
  r1 : Byte
  r2 : Byte
  r3 : Byte
  r4 : Byte
  r5 : Byte
  r6 : Byte
  r7 : Byte
  deriving DecidableEq, Repr

/-- The memory array as the cells that do not hold the reset value, by rising address (20_memory.md rules R50, R52;
log 19 for the form). -/
abbrev Memory := List Host.Cell

/-- The canonical form of a memory: addresses strictly rising and below 256, and no entry that holds what an unlisted
cell reads as (20_memory.md rules R50, R52; log 19). -/
abbrev Memory.wf (m : Memory) : Prop :=
  m.Pairwise (fun c d => c.1 < d.1) ∧ ∀ c ∈ m, c.1 < Config.memCells ∧ c.2 ≠ Config.unlistedByte

/-- The run state (10_state.md rule R30). -/
inductive RunState where
  | running | halted | faulted
  deriving DecidableEq, Repr

/-- A fault cause of the hardware together with its information value (60_exceptions.md rules R150 to R154). -/
inductive FaultCause where
  /-- Code 1: the opcode byte is none of the nine (rule R151). -/
  | unknownInstruction (ir : Byte)
  /-- Code 2: a register operand byte is 8..255 (rule R152). -/
  | registerIndexOutOfRange (byte : Byte)
  /-- Code 3: the engine would form an address outside 0..255 (rule R153). -/
  | addressOutOfRange (addr : Int)
  /-- Code 4: reserved and never recorded (rule R154). -/
  | aluUnsupportedOperation
  deriving DecidableEq, Repr

/-- The fault record `(cause, info, fpc)`, the information value standing inside the cause (10_state.md rule R31). -/
structure FaultRecord where
  cause : FaultCause
  fpc : Byte
  deriving DecidableEq, Repr

/-- The whole state (10_state.md rule R20). `fault = none` is the spec's own `none` (rule R31). -/
structure State where
  regs : RegFile
  pc : Byte
  mem : Memory
  run : RunState
  fault : Option FaultRecord
  out : List Byte
  deriving DecidableEq, Repr

/-- Why `step` answers no next state. A fault OF THE HARDWARE is not among these: it is a next state in which
`run = faulted` (60_exceptions.md rule R158; log 1). Both stops are safe: there is no step to describe (log 2). -/
inductive Fault where
  /-- Raised by `step` alone, when `run = HALTED`: "no further instructions execute after it" (40_engine_cycle.md rules
  R90, R104). Safe. -/
  | engineHalted
  /-- Raised by `step` alone, when `run = FAULTED`: "The engine simply takes no further step" (60_exceptions.md rules
  R158, R159). Safe. -/
  | engineFaulted
  deriving DecidableEq, Repr

/-- Why an instruction is refused. No instruction of this model is. -/
inductive Refusal where
  /-- Raised by `exec` alone, for an instruction without a meaning yet; safe. No arm of `exec` answers it. -/
  | notModelled (mnemonic : String)
  deriving DecidableEq, Repr

/-- The state after reset (10_state.md rule R40, 70_reset_and_hazards.md rule R181): every value is the spec's. -/
def State.reset : State where
  regs := ⟨0, 0, 0, 0, 0, 0, 0, Config.spReset⟩
  pc := Config.pcReset
  mem := []
  run := .running
  fault := none
  out := []

end Sys2Proof.Machine
end

