-- ==== Sys2Proof/Machine/Ops.lean ====
section
/-! DEFINITION. The named operations every meaning is made of: register access, memory access, the one address check,
output, the sequential successor, and the raising of a fault (00_scope.md rules R8 to R11). -/

namespace Sys2Proof.Machine

/-- `x[i]` of a register file (00_scope.md rule R8). -/
def RegFile.get (x : RegFile) : Reg → Byte
  | .r0 => x.r0
  | .r1 => x.r1
  | .r2 => x.r2
  | .r3 => x.r3
  | .r4 => x.r4
  | .r5 => x.r5
  | .r6 => x.r6
  | .r7 => x.r7

/-- `x[i] <- v` on a register file (00_scope.md rule R8). -/
def RegFile.set (x : RegFile) (r : Reg) (v : Byte) : RegFile :=
  match r with
  | .r0 => { x with r0 := v }
  | .r1 => { x with r1 := v }
  | .r2 => { x with r2 := v }
  | .r3 => { x with r3 := v }
  | .r4 => { x with r4 := v }
  | .r5 => { x with r5 := v }
  | .r6 => { x with r6 := v }
  | .r7 => { x with r7 := v }

/-- The value of the cell at an address: the listed byte, or the reset content (20_memory.md rules R52, R53). -/
def Memory.read : Memory → Nat → Byte
  | [], _ => Config.unlistedByte
  | (k, w) :: m, a => if k = a then w else Memory.read m a

/-- A cell in front of a list, left out where it holds what an unlisted cell reads as (log 19). -/
def Memory.put (a : Nat) (v : Byte) (m : Memory) : Memory :=
  if v = Config.unlistedByte then m else (a, v) :: m

/-- The memory with the cell at an address set, in canonical form (20_memory.md rule R54; log 19). -/
def Memory.write : Memory → Nat → Byte → Memory
  | [], a, v => Memory.put a v []
  | (k, w) :: m, a, v =>
    if a < k then Memory.put a v ((k, w) :: m)
    else if a = k then Memory.put a v m
    else (k, w) :: Memory.write m a v

/-- Consecutive cells set from an address upward, the first byte at the lowest address (20_memory.md rule R57). -/
def Memory.writeFrom : Memory → Nat → List Byte → Memory
  | m, _, [] => m
  | m, a, v :: vs => Memory.writeFrom (m.write a v) (a + 1) vs

/-- `x[i]` (00_scope.md rule R8). -/
def State.reg (s : State) (r : Reg) : Byte := s.regs.get r

/-- `x[i] <- v`: "No side effects beyond the mutation itself" (00_scope.md rule R8). -/
def State.setReg (s : State) (r : Reg) (v : Byte) : State := { s with regs := s.regs.set r v }

/-- `SP`, which is `x[7]` and nothing else (00_scope.md rule R8, 10_state.md rule R24). -/
def State.sp (s : State) : Byte := s.reg .r7

/-- `x[7] <- v`. -/
def State.setSp (s : State) (v : Byte) : State := s.setReg .r7 v

/-- `MemRead(addr, 1)` (20_memory.md rule R53); an 8-bit address is always in range (rule R55). -/
def State.memRead (s : State) (a : Byte) : Byte := s.mem.read a.toNat

/-- `MemWrite(addr, 1, v)` (20_memory.md rule R54). -/
def State.memWrite (s : State) (a v : Byte) : State := { s with mem := s.mem.write a.toNat v }

/-- `pc <- t` (00_scope.md rule R10). -/
def State.setPc (s : State) (t : Byte) : State := { s with pc := t }

/-- `Emit(v)`: appends `v` to the output sequence (00_scope.md rule R10, 10_state.md rule R32). -/
def State.emit (s : State) (v : Byte) : State := { s with out := s.out ++ [v] }

/-- `run <- HALTED` (00_scope.md rule R10). -/
def State.halt (s : State) : State := { s with run := .halted }

/-- FAULT ENTRY (60_exceptions.md rule R158): `run <- FAULTED` and `fault <- (cause, info, pc)`, exactly these two things.
No register, memory cell, output or `pc` changes, and control goes nowhere. There is NO return from it (rule R159): only
reset leaves FAULTED, so no operation stands beside this one. -/
def raise (c : FaultCause) (s : State) : State :=
  { s with run := .faulted, fault := some ⟨c, s.pc⟩ }

/-- The end of every handler: its effect, or the fault its checks raised before any write (00_scope.md rule R11;
40_engine_cycle.md rule R91). The fault is taken in the state the step began in. -/
def settle (s : State) : Except FaultCause State → Host.Outcome State Fault Refusal
  | .ok t => .next t
  | .error c => .next (raise c s)

/-- The one address check: an address formed on unbounded integers is legal in 0..255 and otherwise raises
`AddressOutOfRange` (00_scope.md rule R7, 20_memory.md rule R55). -/
def checkAddr (v : Int) : Except FaultCause Byte :=
  if 0 ≤ v ∧ v ≤ Config.addrMax then .ok (BitVec.ofInt 8 v) else .error (.addressOutOfRange v)

/-- The sequential successor `pc + n + 1` of a non-branching instruction, checked (40_engine_cycle.md rules R95, R96).
`n` is bits 7:6 of the opcode byte. Beyond `pc = 253` no step gets here; log 3 says what it answers there. -/
def successor (i : Instr) (s : State) : Except FaultCause Byte :=
  checkAddr (s.pc.toNat + operandCount (opcodeByte i) + 1)

/-- The numeric code of a cause (60_exceptions.md rule R150). -/
def FaultCause.code : FaultCause → Nat
  | .unknownInstruction _ => 1
  | .registerIndexOutOfRange _ => 2
  | .addressOutOfRange _ => 3
  | .aluUnsupportedOperation => 4

/-- The information value of a cause (60_exceptions.md rules R150 to R154). -/
def FaultCause.info : FaultCause → Option Int
  | .unknownInstruction ir => some ir.toNat
  | .registerIndexOutOfRange b => some b.toNat
  | .addressOutOfRange a => some a
  | .aluUnsupportedOperation => none

end Sys2Proof.Machine
end

