-- ==== Sys2Proof/Machine/Flags.lean ====
section
/-! DEFINITION. The arithmetic of the ALU and what becomes of it. THERE ARE NO FLAGS (10_state.md rule R33): the bits of
the exact result above bit 7 are discarded by the narrowing below and leave no trace (43_alu.md rule R122). -/

namespace Sys2Proof.Machine

/-- The ALU's two operations, selected by the MUL and ADD handlers alone (40_engine_cycle.md rules R102, R103). -/
inductive AluOp where
  | multiply | add
  deriving DecidableEq, Repr

/-- The exact mathematical result of two unsigned operands (43_alu.md rule R122). -/
def AluOp.exact : AluOp → Byte → Byte → Nat
  | .multiply, x, y => x.toNat * y.toNat
  | .add, x, y => x.toNat + y.toNat

/-- The 8-bit result: the exact one modulo 256 (43_alu.md rules R120 to R122, D1). -/
def narrow (v : Nat) : Byte := BitVec.ofNat 8 v

/-- The ALU: reads the two registers, then writes the result into the first; no other output (40_engine_cycle.md rule
R102). Both operands are read before the write, so `ra = rb` squares or doubles (43_alu.md rules R120, R121). -/
def alu (op : AluOp) (ra rb : Reg) (s : State) : State :=
  s.setReg ra (narrow (op.exact (s.reg ra) (s.reg rb)))

end Sys2Proof.Machine
end

