-- ==== Sys2Proof/Machine/Operands.lean ====
section
/-! DEFINITION. Every operand form of the instruction set: the register operand byte (30_encoding.md rule R76) and the two
implicit stack forms, pre-decrement and post-increment (44_stack.md). An immediate needs no operation: it is the byte as
it stands (30_encoding.md rule R77). -/

namespace Sys2Proof.Machine

/-- The index of a register, as an operand byte spells it (10_state.md rule R21). -/
def Reg.index : Reg → Byte
  | .r0 => 0#8
  | .r1 => 1#8
  | .r2 => 2#8
  | .r3 => 3#8
  | .r4 => 4#8
  | .r5 => 5#8
  | .r6 => 6#8
  | .r7 => 7#8

/-- A register operand: the whole byte is the index; 8..255 raises `RegisterIndexOutOfRange` with the byte, which is
never masked (30_encoding.md rule R76, 60_exceptions.md rule R152). -/
def regOperand (b : Byte) : Except FaultCause Reg :=
  match b.toNat with
  | 0 => .ok .r0
  | 1 => .ok .r1
  | 2 => .ok .r2
  | 3 => .ok .r3
  | 4 => .ok .r4
  | 5 => .ok .r5
  | 6 => .ok .r6
  | 7 => .ok .r7
  | _ => .error (.registerIndexOutOfRange b)

/-- The effective address of a push, `x[7] - 1`, which is also the new stack pointer; `x[7] = 0` raises
`AddressOutOfRange(-1)` (44_stack.md rule R130, 45_call_return.md rule R140, 10_state.md rule R25). -/
def pushSlot (s : State) : Except FaultCause Byte := checkAddr ((s.sp.toNat : Int) - 1)

/-- The stack pointer after a pop increments the value `v` that register 7 then holds; `v = 255` raises
`AddressOutOfRange(256)` (44_stack.md rules R132, R133, 45_call_return.md rule R142, 10_state.md rule R25). -/
def popPointer (v : Byte) : Except FaultCause Byte := checkAddr ((v.toNat : Int) + 1)

/-- A push that has passed its checks: the stack pointer takes the slot's address, then the value, computed in the state
after the decrement, is stored there (44_stack.md rules R130, R131, 45_call_return.md rules R140, R141). -/
def pushAt (slot : Byte) (value : State → Byte) (s : State) : State :=
  let s₁ := s.setSp slot
  s₁.memWrite slot (value s₁)

end Sys2Proof.Machine
end

