-- ==== Sys2Proof/Machine/Alu.lean ====
section
/-! DEFINITION. MUL and ADD (43_alu.md). -/

namespace Sys2Proof.Machine

/-- `MUL regA, regB` (43_alu.md rule R120); regA is checked before regB (30_encoding.md rule R76). -/
def execMul (a b : Byte) (s : State) : Host.Outcome State Fault Refusal :=
  settle s do
    let ra ← regOperand a
    let rb ← regOperand b
    let next ← successor (.mul a b) s
    pure ((alu .multiply ra rb s).setPc next)

/-- `ADD regA, regB` (43_alu.md rule R121); regA is checked before regB (30_encoding.md rule R76). -/
def execAdd (a b : Byte) (s : State) : Host.Outcome State Fault Refusal :=
  settle s do
    let ra ← regOperand a
    let rb ← regOperand b
    let next ← successor (.add a b) s
    pure ((alu .add ra rb s).setPc next)

end Sys2Proof.Machine
end

