-- ==== Sys2Proof/Machine/CallReturn.lean ====
section
/-! DEFINITION. CALL and RET (45_call_return.md). -/

namespace Sys2Proof.Machine

/-- The return address `pc + 2` that CALL stores in a cell; at the `pc` of a step, at most 253, it is at most 255
(45_call_return.md rule R140). Log 3 says what it is beyond. -/
def returnAddress (s : State) : Byte := s.pc + 2#8

/-- `CALL regA` (45_call_return.md rules R140, R141): the target `x[a]` is read after the decrement, so CALL R7 goes to
the new stack pointer (D11). No sequential advance (40_engine_cycle.md rule R97). -/
def execCall (a : Byte) (s : State) : Host.Outcome State Fault Refusal :=
  settle s do
    let ra ← regOperand a
    let slot ← pushSlot s
    let pushed := pushAt slot returnAddress s
    pure (pushed.setPc (pushed.reg ra))

/-- `RET` (45_call_return.md rule R142): the target is the byte at the top of the stack, unchecked. -/
def execRet (s : State) : Host.Outcome State Fault Refusal :=
  settle s do
    let sp' ← popPointer s.sp
    pure ((s.setPc (s.memRead s.sp)).setSp sp')

end Sys2Proof.Machine
end

