-- ==== Sys2Proof/Machine/Halt.lean ====
section
/-! DEFINITION. HLT (42_halt.md). -/

namespace Sys2Proof.Machine

/-- `HLT`: `run <- HALTED` and nothing else; `pc` stays at the HLT byte (42_halt.md rule R115, D10). -/
def execHlt (s : State) : Host.Outcome State Fault Refusal := .next s.halt

end Sys2Proof.Machine
end

