-- ==== Sys2Proof/Machine/LoadOutput.lean ====
section
/-! DEFINITION. LDI and PRN (41_load_immediate_and_output.md). -/

namespace Sys2Proof.Machine

/-- `LDI regA, immediate` (41_load_immediate_and_output.md rule R110). -/
def execLdi (a imm : Byte) (s : State) : Host.Outcome State Fault Refusal :=
  settle s do
    let ra ← regOperand a
    let next ← successor (.ldi a imm) s
    pure ((s.setReg ra imm).setPc next)

/-- `PRN regA` (41_load_immediate_and_output.md rule R111). The successor check is the general one of 40_engine_cycle.md
rule R96; it never fails at the `pc` of a step (log 3). -/
def execPrn (a : Byte) (s : State) : Host.Outcome State Fault Refusal :=
  settle s do
    let ra ← regOperand a
    let next ← successor (.prn a) s
    pure ((s.emit (s.reg ra)).setPc next)

end Sys2Proof.Machine
end

