-- ==== Sys2Proof/Machine/Stack.lean ====
section
/-! DEFINITION. PUSH and POP (44_stack.md). -/

namespace Sys2Proof.Machine

/-- `PUSH regA` (44_stack.md rules R130, R131): `x[a]` is read after the decrement, so PUSH R7 stores the new stack
pointer (D11). The successor check never fails at the `pc` of a step (log 3). -/
def execPush (a : Byte) (s : State) : Host.Outcome State Fault Refusal :=
  settle s do
    let ra ← regOperand a
    let slot ← pushSlot s
    let next ← successor (.push a) s
    pure ((pushAt slot (fun s₁ => s₁.reg ra) s).setPc next)

/-- `POP regA` (44_stack.md rules R132, R133): the increment works on what register 7 holds after `x[a] <- v`, so POP R7
leaves the popped value plus one (D11). The range check stands before the first write. -/
def execPop (a : Byte) (s : State) : Host.Outcome State Fault Refusal :=
  settle s do
    let ra ← regOperand a
    let loaded := s.setReg ra (s.memRead s.sp)
    let sp' ← popPointer loaded.sp
    let next ← successor (.pop a) s
    pure ((loaded.setSp sp').setPc next)

end Sys2Proof.Machine
end

