-- ==== Sys2Proof/Machine/Dispatch.lean ====
section
/-! DEFINITION. The dispatch: one arm per instruction, in the source's order (40_engine_cycle.md rules R94, R98). -/

namespace Sys2Proof.Machine

-- What a handler does once it is reached: phases 4 to 6 of the step (40_engine_cycle.md rule R91; log 3).
def exec (i : Instr) (s : State) : Host.Outcome State Fault Refusal :=
  match i with
  | .ldi a imm => Sys2Proof.Machine.execLdi a imm s
  | .prn a => Sys2Proof.Machine.execPrn a s
  | .hlt => Sys2Proof.Machine.execHlt s
  | .mul a b => Sys2Proof.Machine.execMul a b s
  | .add a b => Sys2Proof.Machine.execAdd a b s
  | .push a => Sys2Proof.Machine.execPush a s
  | .pop a => Sys2Proof.Machine.execPop a s
  | .call a => Sys2Proof.Machine.execCall a s
  | .ret => Sys2Proof.Machine.execRet s

end Sys2Proof.Machine
end

