-- ==== Sys2Proof/Machine/Fetch.lean ====
section
/-! DEFINITION. Phases 1 to 3 of the step: the fetch of the opcode byte and of the two look-ahead bytes, the decode, and
the lookup (40_engine_cycle.md rules R91 to R94). -/

namespace Sys2Proof.Machine

/-- The values of one cycle (10_state.md rule R36). The operand count is computed from `ir`. -/
structure Fetched where
  ir : Byte
  a : Byte
  b : Byte
  deriving DecidableEq, Repr

/-- The fetch: three reads, at `pc`, `pc + 1`, `pc + 2`, in that order, whatever the instruction (40_engine_cycle.md rule
R92). The look-ahead addresses are checked and never wrap: from `pc = 254` on the first one outside is 256 (rule R93,
D6). -/
def fetch (s : State) : Except FaultCause Fetched := do
  let ir := s.memRead s.pc
  let pa ← checkAddr (s.pc.toNat + 1)
  let pb ← checkAddr (s.pc.toNat + 2)
  pure ⟨ir, s.memRead pa, s.memRead pb⟩

/-- Fetch, then the lookup on the whole opcode byte: an unknown one raises `UnknownInstruction` (40_engine_cycle.md rule
R94, 60_exceptions.md rules R151, R157). -/
def fetchDecode (s : State) : Except FaultCause Instr := do
  let f ← fetch s
  match decodeWindow f.ir f.a f.b with
  | some i => pure i
  | none => .error (.unknownInstruction f.ir)

/-- Whether the engine takes no step: it does so only while `run = RUNNING` (10_state.md rule R30, 40_engine_cycle.md
rule R90; log 2). -/
def stopReason (s : State) : Option Fault :=
  match s.run with
  | .running => none
  | .halted => some .engineHalted
  | .faulted => some .engineFaulted

/-- The bytes of a table word that fit from the program counter upward (log 20). -/
def placeTableWord (nbits w : Nat) (s : State) : Memory :=
  s.mem.writeFrom s.pc.toNat ((tableBytes nbits w).take (Config.memCells - s.pc.toNat))

end Sys2Proof.Machine
end

