-- ==== Sys2Proof/Machine/Step.lean ====
section
/-! DEFINITION. The complete step (40_engine_cycle.md rule R98), and the placing of a table word where it fetches. -/

namespace Sys2Proof.Machine

/-- One cycle of the engine (40_engine_cycle.md rule R98): while `run = RUNNING`, fetch, dispatch, and run the handler; a
fault of the fetch or of the lookup is taken as every fault is, as a next state (60_exceptions.md rule R158). -/
def step (s : State) : Host.Outcome State Fault Refusal :=
  match stopReason s with
  | some r => .fault r
  | none =>
    match fetchDecode s with
    | .error c => .next (raise c s)
    | .ok i => exec i s

/-- The state with an instruction's bytes stored at the program counter, the rest of the longest instruction zero; the
fetch needs nothing else changed (log 20). -/
def State.withFetchWord (s : State) (nbits w : Nat) : State :=
  { s with mem := placeTableWord nbits w s }

end Sys2Proof.Machine
end

