-- ==== Sys2Proof/Machine/Embedding.lean ====
section
/-! DEFINITION. The boundary of the core as far as the spec gives it: the loader (30_encoding.md rules R87, R88,
70_reset_and_hazards.md rules R183 to R186), the run loop (40_engine_cycle.md rules R90, R100), and what the output
collaborator writes for each value (41_load_immediate_and_output.md rule R111). None of it is part of a step. -/

namespace Sys2Proof.Machine

/-- Why nothing is loaded: a configuration error, "before any instruction executes" (30_encoding.md rule R88). The spec has
the one kind; that the model tells four causes of it apart, and which it reports where several are present, is the
model's (DESIGN CHOICE, log 25). -/
inductive LoadError where
  /-- A token that is not base-2 digits (30_encoding.md rule R88). -/
  | nonBinaryToken
  /-- A value above 255 (30_encoding.md rule R88). -/
  | valueTooWide
  /-- A token of other than eight digits that the loader does not accept (30_encoding.md rule R87; log 21). -/
  | digitCount
  /-- More than 256 values (70_reset_and_hazards.md rule R185, D15). -/
  | imageTooLong
  deriving DecidableEq, Repr

/-- A line of the image text once the comment has been stripped, which is outside this model (00_scope.md rule R4; log
21): blank and comment-only lines are skipped, the others carry a token (30_encoding.md rule R87). -/
inductive ImageLine where
  | skipped
  | significant (token : List Char)
  deriving DecidableEq, Repr

/-- The value of base-2 digits, most significant first, from an accumulated value on; `none` at any other character
(30_encoding.md rule R87). -/
def digitsValue : Nat → List Char → Option Nat
  | acc, [] => some acc
  | acc, c :: cs =>
    if c = '0' then digitsValue (2 * acc) cs
    else if c = '1' then digitsValue (2 * acc + 1) cs
    else none

/-- The byte a token stands for (30_encoding.md rules R87, R88). Eight digits are accepted; of another count only the
free value of Config speaks (log 21). Where a token is both too large and of an unaccepted count, the value is reported
(DESIGN CHOICE, log 25). -/
def parseToken (token : List Char) : Except LoadError Byte :=
  match token, digitsValue 0 token with
  | [], _ => .error .nonBinaryToken
  | _, none => .error .nonBinaryToken
  | _, some v =>
    if 255 < v then .error .valueTooWide
    else if token.length = 8 ∨ Config.acceptsDigitCount token.length then .ok (BitVec.ofNat 8 v)
    else .error .digitCount

/-- The image bytes of the significant lines, in order (30_encoding.md rule R87). Where several lines are bad, the first is
reported (DESIGN CHOICE, log 25). -/
def parseImage : List ImageLine → Except LoadError (List Byte)
  | [] => .ok []
  | .skipped :: ls => parseImage ls
  | .significant token :: ls => do
    let v ← parseToken token
    let vs ← parseImage ls
    pure (v :: vs)

/-- The loader: the image's bytes into the cells from address 0 upward, and nothing else (70_reset_and_hazards.md rule
R184); an image of more than 256 bytes is refused (rule R185, D15). -/
def load (image : List Byte) (s : State) : Except LoadError State :=
  if image.length ≤ Config.memCells then .ok { s with mem := s.mem.writeFrom Config.loadBase image }
  else .error .imageTooLong

/-- Reset, then load: the state the engine starts from (70_reset_and_hazards.md rule R183). -/
def boot (image : List Byte) : Except LoadError State := load image State.reset

/-- Boot from the lines of an image text (70_reset_and_hazards.md rule R183; a configuration error starts nothing). A bad
token is reported before the length of the image (DESIGN CHOICE, log 25). -/
def bootText (lines : List ImageLine) : Except LoadError State := do
  let image ← parseImage lines
  boot image

/-- The run loop under fuel: at most `k` steps, none once `run` has left RUNNING (40_engine_cycle.md rules R90, R100). -/
def runFor : Nat → State → State
  | 0, s => s
  | k + 1, s =>
    match step s with
    | .next t => runFor k t
    | .fault _ => s
    | .refused _ => s

/-- The decimal text the output collaborator writes for each emitted value, as an unsigned number; what separates two
of them is not in the spec (41_load_immediate_and_output.md rule R111, D13). -/
def State.rendered (s : State) : List String := s.out.map fun v => Nat.repr v.toNat

end Sys2Proof.Machine
end

