-- ==== Sys2Proof/Safety.lean ====
section
/-! DEFINITION. What counts as a legal state, a reachable state, and a normal end of a run. -/

namespace Sys2Proof.Machine

/-- A cause the hardware can record: an opcode outside the map, a register byte of 8..255, or an address of -1 or 256;
the reserved cause never (60_exceptions.md rules R150 to R154). -/
def FaultCause.recordable : FaultCause → Bool
  | .unknownInstruction ir => (decodeWindow ir 0#8 0#8).isNone
  | .registerIndexOutOfRange b => !decide (b.toNat ≤ 7)
  | .addressOutOfRange a => a == -1 || a == 256
  | .aluUnsupportedOperation => false

/-- A record that fits the state it stands in: a recordable cause, at the address `pc` (10_state.md rule R31). -/
def FaultRecord.fits (f : FaultRecord) (s : State) : Bool := f.cause.recordable && f.fpc == s.pc

/-- The invariant of every state (10_state.md rules R31, R38): the memory keeps its canonical form (256 cells of 8 bits),
and the fault record is there exactly when `run = FAULTED`, and fits. That registers, cells and `pc` are in 0..255 is
their type. -/
structure State.Inv (s : State) : Prop where
  memory : s.mem.wf
  recorded : s.fault.isSome ↔ s.run = .faulted
  fits : ∀ f ∈ s.fault, f.fits s

/-- A state some image leads to: reset, load, and steps (70_reset_and_hazards.md rule R183). -/
inductive Reachable : State → Prop where
  | booted {image : List Byte} {s : State} : boot image = .ok s → Reachable s
  | stepped {s t : State} : Reachable s → step s = .next t → Reachable t

/-- The normal end of a run: HLT "is the sole normal termination path" (40_engine_cycle.md rule R104). -/
abbrev State.endedNormally (s : State) : Prop := s.run = .halted

/-- A safe run of an image: within `k` steps it ends by HLT; a faulted state is never a successful end (10_state.md rule
R30). -/
abbrev EndsNormallyWithin (k : Nat) (image : List Byte) : Prop :=
  ∃ s, boot image = .ok s ∧ (runFor k s).endedNormally

end Sys2Proof.Machine
end

