-- ==== Sys2Proof/WellFormed.lean ====
section
/-! DEFINITION. When an instruction's operands are legal: every register operand byte is 0..7 (30_encoding.md rule R76);
every immediate byte is legal (rule R77). An ill-formed instruction still has an encoding and a meaning: it raises
`RegisterIndexOutOfRange`. -/

namespace Sys2Proof

/-- A legal register operand byte (30_encoding.md rule R76: "The legal values are 0..7"). -/
def legalRegister (b : Byte) : Bool := decide (b.toNat ≤ 7)

/-- Every register operand the instruction's format uses is legal (30_encoding.md rules R72, R76, R77). -/
def Instr.wellFormed : Instr → Bool
  | .ldi a _ => legalRegister a
  | .prn a => legalRegister a
  | .hlt => true
  | .mul a b => legalRegister a && legalRegister b
  | .add a b => legalRegister a && legalRegister b
  | .push a => legalRegister a
  | .pop a => legalRegister a
  | .call a => legalRegister a
  | .ret => true

end Sys2Proof
end

