-- ==== Sys2Proof/Certificates/Slice0/Obligations.lean ====
section
/-! DEFINITION. The statements for the provers. Each docstring names the rule of spec/ it formalises; where a clause
rests on a decision D<n> of 92_eei_decisions.md (the spec's own choice) or on a reading the spec marks as its own, the
docstring says so. `s.reg r` is `x[r]`, `s.reg .r7` the stack pointer, `s.memRead a` is `mem[a]`, `r.index` the operand
byte that names `r`, and `raise c s` the fault entry of 60_exceptions.md rule R158. -/

open Sys2Proof Sys2Proof.Machine

/-! ## Reset, loading -/

/-- 10_state.md section 9 (rule R40; that `fault` is none and `out` empty is marked there as derived from R31, R32). -/
def Obligations.ResetLeavesTheSpecsValues : Prop :=
  (∀ r, State.reset.reg r = if r = .r7 then 244#8 else 0#8) ∧ State.reset.pc = 0#8 ∧
  (∀ a, State.reset.memRead a = 0#8) ∧ State.reset.run = .running ∧ State.reset.fault = none ∧ State.reset.out = []

/-- 70_reset_and_hazards.md rule R184: what the loader leaves in memory, and that it writes nothing else. -/
def Obligations.LoaderPlacesTheImage : Prop :=
  ∀ image : List Byte, image.length ≤ 256 → ∃ t, load image State.reset = .ok t ∧
    (∀ (k : Nat) (h : k < image.length), t.memRead (BitVec.ofNat 8 k) = image[k]) ∧
    (∀ k, image.length ≤ k → k ≤ 255 → t.memRead (BitVec.ofNat 8 k) = 0#8) ∧
    t.regs = State.reset.regs ∧ t.pc = State.reset.pc ∧ t.run = State.reset.run ∧ t.out = State.reset.out ∧
    t.fault = State.reset.fault

/-- 70_reset_and_hazards.md rule R185 (D15): a longer image is refused, and an empty one is legal and faults at once. -/
def Obligations.LongImageRefusedEmptyImageFaults : Prop :=
  (∀ (image : List Byte) (s : State), 256 < image.length → load image s = .error .imageTooLong) ∧
  ∃ t, boot [] = .ok t ∧ (∀ a, t.memRead a = 0#8) ∧ step t = .next (raise (.unknownInstruction 0#8) t)

/-- 30_encoding.md section 5 (rules R87, R88; source property T9): eight base-2 digits are a byte, most significant
first; a token with another character, or of a value above 255, is a configuration error, and an image text that holds
such a token starts nothing. Nothing is said of a token of another length that fits: there the model has a free value
(log 21, the model's own DESIGN CHOICE). Which configuration error is named is the model's too (log 25, DESIGN CHOICE). -/
def Obligations.ImageTokensAreReadOrRefused : Prop :=
  (∀ token : List Char, token.length = 8 → (∀ c ∈ token, c = '0' ∨ c = '1') →
    parseToken token =
      .ok (BitVec.ofNat 8 (Nat.ofDigits 2 (token.reverse.map fun c => if c = '1' then 1 else 0)))) ∧
  (∀ token : List Char, (∃ c ∈ token, c ≠ '0' ∧ c ≠ '1') → parseToken token = .error .nonBinaryToken) ∧
  (∀ token : List Char, (∀ c ∈ token, c = '0' ∨ c = '1') →
    255 < Nat.ofDigits 2 (token.reverse.map fun c => if c = '1' then 1 else 0) →
    parseToken token = .error .valueTooWide) ∧
  (∀ (lines : List ImageLine) (token : List Char) (e : LoadError), .significant token ∈ lines →
    parseToken token = .error e → ∃ e', bootText lines = .error e')

/-! ## Registers and memory -/

/-- 00_scope.md section 4 (rule R8): `x[i] <- v` sets one register and has no other effect; 10_state.md rule R21: no
register is hardwired. -/
def Obligations.RegisterWriteThenRead : Prop :=
  ∀ (s : State) (r q : Reg) (v : Byte),
    (s.setReg r v).reg q = (if q = r then v else s.reg q) ∧
    (s.setReg r v).pc = s.pc ∧ (s.setReg r v).mem = s.mem ∧ (s.setReg r v).run = s.run ∧
    (s.setReg r v).fault = s.fault ∧ (s.setReg r v).out = s.out

/-- 20_memory.md section 2 (rule R54): `MemWrite` sets one cell and changes nothing else. That the canonical form of the
memory, which the reading of a cell needs, is kept is about the model's own representation (log 19, DESIGN CHOICE). -/
def Obligations.MemoryWriteThenRead : Prop :=
  ∀ (s : State) (a v : Byte), s.mem.wf →
    (∀ b, (s.memWrite a v).memRead b = if b = a then v else s.memRead b) ∧ (s.memWrite a v).mem.wf ∧
    (s.memWrite a v).regs = s.regs ∧ (s.memWrite a v).pc = s.pc ∧ (s.memWrite a v).run = s.run ∧
    (s.memWrite a v).fault = s.fault ∧ (s.memWrite a v).out = s.out

/-- 20_memory.md section 1 (rule R50): a memory is its 256 cells. In the model's canonical form (log 19) two memories
that agree on every cell are the same data. -/
def Obligations.MemoriesWithEqualCellsAreEqual : Prop :=
  ∀ s t : State, s.mem.wf → t.mem.wf → (∀ a, s.memRead a = t.memRead a) → s.mem = t.mem

/-! ## Encoding -/

/-- 30_encoding.md sections 1 to 3: the decoder reads back every instruction, at every operand byte 0..255, and leaves
the bytes after it. -/
def Obligations.DecodeOfEncodeIsTheInstruction : Prop :=
  ∀ (i : Instr) (rest : List Byte), decode (encode i ++ rest) = .ok (i, rest)

/-- 30_encoding.md sections 1 to 3, the other direction: bytes that decode to an instruction are its encoding and the
rest, so each sequence of bytes has one meaning. -/
def Obligations.EncodeOfDecodeIsTheBytes : Prop :=
  ∀ (bytes rest : List Byte) (i : Instr), decode bytes = .ok (i, rest) → encode i ++ rest = bytes

/-- 30_encoding.md rule R78: the complete opcode map, with the operand counts. -/
def Obligations.OpcodeMapIsTheTable : Prop :=
  ∀ a b : Byte,
    (decodeWindow 0b00000001#8 a b = some .hlt ∧ operandCount 0b00000001#8 = 0) ∧
    (decodeWindow 0b00010001#8 a b = some .ret ∧ operandCount 0b00010001#8 = 0) ∧
    (decodeWindow 0b01000101#8 a b = some (.push a) ∧ operandCount 0b01000101#8 = 1) ∧
    (decodeWindow 0b01000110#8 a b = some (.pop a) ∧ operandCount 0b01000110#8 = 1) ∧
    (decodeWindow 0b01000111#8 a b = some (.prn a) ∧ operandCount 0b01000111#8 = 1) ∧
    (decodeWindow 0b01010000#8 a b = some (.call a) ∧ operandCount 0b01010000#8 = 1) ∧
    (decodeWindow 0b10000010#8 a b = some (.ldi a b) ∧ operandCount 0b10000010#8 = 2) ∧
    (decodeWindow 0b10100000#8 a b = some (.add a b) ∧ operandCount 0b10100000#8 = 2) ∧
    (decodeWindow 0b10100010#8 a b = some (.mul a b) ∧ operandCount 0b10100010#8 = 2)

/-- 30_encoding.md rule R80 (D2): the 247 other opcode bytes spell no instruction, and each of them faults. -/
def Obligations.UnknownOpcodesFault : Prop :=
  ((List.range 256).filter fun n => (decodeWindow (BitVec.ofNat 8 n) 0#8 0#8).isNone).length = 247 ∧
  (∀ ir a b : Byte, decodeWindow ir a b = none ↔
    ir ∉ ([0x01#8, 0x11#8, 0x45#8, 0x46#8, 0x47#8, 0x50#8, 0x82#8, 0xA0#8, 0xA2#8] : List Byte)) ∧
  (∀ s : State, s.run = .running → s.pc.toNat ≤ 253 →
    s.memRead s.pc ∉ ([0x01#8, 0x11#8, 0x45#8, 0x46#8, 0x47#8, 0x50#8, 0x82#8, 0xA0#8, 0xA2#8] : List Byte) →
    step s = .next (raise (.unknownInstruction (s.memRead s.pc)) s))

/-- 30_encoding.md rule R70: the length is `1 + n`, `n` bits 7:6 of the opcode byte, which is the first byte; so there
are three lengths. -/
def Obligations.LengthIsOnePlusOperandCount : Prop :=
  ∀ i : Instr, (encode i).head? = some (opcodeByte i) ∧ (encode i).length = 1 + operandCount (opcodeByte i) ∧
    operandCount (opcodeByte i) = (opcodeByte i).toNat / 64 ∧
    ((encode i).length = 1 ∨ (encode i).length = 2 ∨ (encode i).length = 3)

/-- 30_encoding.md section 5 (assembling by hand): one word of each instruction written out, as bytes and as a word
numbered as spec/opcode_table.json numbers it; and two that are rejected (the name of the truncated one is the model's,
log 24). -/
def Obligations.WrittenOutWordsDecode : Prop :=
  decode [0x01#8] = .ok (.hlt, []) ∧ decode [0x11#8] = .ok (.ret, []) ∧
  decode [0x45#8, 0x03#8] = .ok (.push 3#8, []) ∧ decode [0x46#8, 0x02#8] = .ok (.pop 2#8, []) ∧
  decode [0x47#8, 0x07#8] = .ok (.prn 7#8, []) ∧ decode [0x50#8, 0x01#8] = .ok (.call 1#8, []) ∧
  decode [0x82#8, 0x03#8, 0xFF#8] = .ok (.ldi 3#8 255#8, []) ∧ decode [0xA0#8, 0x05#8, 0x06#8] = .ok (.add 5#8 6#8, []) ∧
  decode [0xA2#8, 0x01#8, 0x07#8] = .ok (.mul 1#8 7#8, []) ∧ decodeTableWord 24 0xFF0382 = some (.ldi 3#8 255#8) ∧
  decode [0xA1#8, 0x00#8, 0x01#8] = .error (.unknownOpcode 0xA1#8) ∧ decode [0x82#8, 0x03#8] = .error (.truncated 0x82#8)

/-- 30_encoding.md section 2 (rules R75, R76): bytes that a format does not use have no influence: the second look-ahead
byte of a one-operand opcode, and both of a zero-operand one. -/
def Obligations.UnusedLookaheadBytesDoNotMatter : Prop :=
  ∀ ir a b a' b' : Byte,
    (operandCount ir = 1 → decodeWindow ir a b = decodeWindow ir a b') ∧
    (operandCount ir = 0 → decodeWindow ir a b = decodeWindow ir a' b')

/-! ## The step -/

/-- 40_engine_cycle.md rule R94 (the fault for an unknown opcode is D2): dispatch is a lookup of the whole byte fetched
at `pc`; the handler of a known one runs with the two bytes after it. -/
def Obligations.StepRunsTheDecodedInstruction : Prop :=
  ∀ (s : State), s.run = .running → s.pc.toNat ≤ 253 →
    (∀ (i : Instr) (rest : List Byte),
      decode [s.memRead s.pc, s.memRead (s.pc + 1#8), s.memRead (s.pc + 2#8)] = .ok (i, rest) → step s = exec i s) ∧
    (decode [s.memRead s.pc, s.memRead (s.pc + 1#8), s.memRead (s.pc + 2#8)] =
        .error (.unknownOpcode (s.memRead s.pc)) →
      step s = .next (raise (.unknownInstruction (s.memRead s.pc)) s))

/-- 20_memory.md section 3 and 40_engine_cycle.md sections 2, 3: an instruction whose encoding stands in memory from `pc`
upward is the one the step runs, whatever bytes follow it. -/
def Obligations.EncodedInstructionInMemoryRuns : Prop :=
  ∀ (i : Instr) (s : State), s.run = .running → s.pc.toNat ≤ 253 →
    (∀ (k : Nat) (h : k < (encode i).length), s.memRead (s.pc + BitVec.ofNat 8 k) = (encode i)[k]) →
    step s = exec i s

/-- 40_engine_cycle.md rule R98 (its look-ahead fault is D6, its unknown-opcode fault D2): the complete step, line by
line; it is total, and each `raise` sets `run` and `fault` and nothing else. -/
def Obligations.StepIsTheSpecsFunction : Prop :=
  ∀ s : State, s.run = .running →
    (step s =
      if 255 < s.pc.toNat + 2 then .next (raise (.addressOutOfRange 256) s)
      else
        let ir := s.memRead s.pc
        let a := s.memRead (s.pc + 1#8)
        let b := s.memRead (s.pc + 2#8)
        if ir = 0x82#8 then exec (.ldi a b) s
        else if ir = 0x47#8 then exec (.prn a) s
        else if ir = 0x01#8 then exec .hlt s
        else if ir = 0xA2#8 then exec (.mul a b) s
        else if ir = 0xA0#8 then exec (.add a b) s
        else if ir = 0x45#8 then exec (.push a) s
        else if ir = 0x46#8 then exec (.pop a) s
        else if ir = 0x50#8 then exec (.call a) s
        else if ir = 0x11#8 then exec .ret s
        else .next (raise (.unknownInstruction ir) s)) ∧
    (∃ t, step s = .next t) ∧
    (∀ c, (raise c s).regs = s.regs ∧ (raise c s).mem = s.mem ∧ (raise c s).pc = s.pc ∧ (raise c s).out = s.out ∧
      (raise c s).run = .faulted ∧ (raise c s).fault = some ⟨c, s.pc⟩)

/-- 40_engine_cycle.md rule R93 (D6): from `pc = 254` on every step raises `AddressOutOfRange(256)`, whatever the opcode;
253 is the last address an instruction starts at, shown by HLT, which halts there. -/
def Obligations.LookaheadFaultsAtTheTop : Prop :=
  (∀ s : State, s.run = .running → 254 ≤ s.pc.toNat → step s = .next (raise (.addressOutOfRange 256) s)) ∧
  (∀ s : State, s.run = .running → s.pc.toNat ≤ 253 → s.memRead s.pc = 0x01#8 → step s = .next s.halt)

/-- 40_engine_cycle.md sections 1 and 7 (rules R90, R104): steps are taken exactly while `run = RUNNING`. That the two
ends are told apart by the stops `engineHalted` and `engineFaulted` is the model's rendering (log 2). -/
def Obligations.EngineStepsExactlyWhileRunning : Prop :=
  ∀ s : State, ((∃ t, step s = .next t) ↔ s.run = .running) ∧
    (s.run = .halted → step s = .fault .engineHalted) ∧ (s.run = .faulted → step s = .fault .engineFaulted)

/-- 40_engine_cycle.md section 5: every handler answers a next state, its effect or a fault taken; no instruction is
refused and none ends the model's run. -/
def Obligations.EveryInstructionAnswersANextState : Prop :=
  ∀ (i : Instr) (s : State), ∃ t, exec i s = .next t ∧
    (t.run = s.run ∨ (t.run = .halted ∧ i = .hlt) ∨ ∃ c, t = raise c s)

/-- 10_state.md rule R30 (FAULTED is D7): reset sets RUNNING; RUNNING to HALTED by HLT only, RUNNING to FAULTED by a
fault only; HALTED and FAULTED have no outgoing transition. -/
def Obligations.RunStateTransitions : Prop :=
  State.reset.run = .running ∧
  (∀ s t : State, step s = .next t → s.run = .running ∧
    ((t.run = .running ∧ t.fault = s.fault) ∨
      (t.run = .halted ∧ s.pc.toNat ≤ 253 ∧ s.memRead s.pc = 0x01#8 ∧ t = s.halt) ∨
      (t.run = .faulted ∧ ∃ c, t = raise c s))) ∧
  (∀ s : State, s.run = .running → s.pc.toNat ≤ 253 → s.memRead s.pc = 0x01#8 →
    ∃ t, step s = .next t ∧ t.run = .halted) ∧
  (∀ s t : State, s.run ≠ .running → step s ≠ .next t)

/-! ## Faults -/

/-- 60_exceptions.md rule R158 (D7): a fault is precise; it sets `run` and `fault` with the address of the faulting
instruction, nothing else, and the engine takes no further step. -/
def Obligations.FaultEntryIsPrecise : Prop :=
  ∀ s t : State, step s = .next t → t.run = .faulted →
    (∃ c, t.fault = some ⟨c, s.pc⟩) ∧ t.regs = s.regs ∧ t.mem = s.mem ∧ t.pc = s.pc ∧ t.out = s.out ∧
    (∀ u, step t ≠ .next u)

/-- 60_exceptions.md sections 1 and 2 (the table of rule R156, which the spec marks as derived, in the order of rule
R157, D9; the conditions are D2 to D6, for POP R7 also D11): whether a step faults, and with which cause. -/
def Obligations.FaultsAreThoseOfTheTable : Prop :=
  ∀ s t : State, step s = .next t →
    let ir := s.memRead s.pc
    let a := s.memRead (s.pc + 1#8)
    let b := s.memRead (s.pc + 2#8)
    let sp := s.reg .r7
    let expected : Option FaultCause :=
      if 254 ≤ s.pc.toNat then some (.addressOutOfRange 256)
      else if ir ∉ ([0x82#8, 0x47#8, 0x01#8, 0xA2#8, 0xA0#8, 0x45#8, 0x46#8, 0x50#8, 0x11#8] : List Byte) then
        some (.unknownInstruction ir)
      else if ir ∉ ([0x01#8, 0x11#8] : List Byte) ∧ 8 ≤ a.toNat then some (.registerIndexOutOfRange a)
      else if ir ∈ ([0xA2#8, 0xA0#8] : List Byte) ∧ 8 ≤ b.toNat then some (.registerIndexOutOfRange b)
      else if ir ∈ ([0x45#8, 0x50#8] : List Byte) ∧ sp = 0#8 then some (.addressOutOfRange (-1))
      else if ir = 0x46#8 ∧ (if a = 7#8 then s.memRead sp else sp) = 255#8 then some (.addressOutOfRange 256)
      else if ir = 0x11#8 ∧ sp = 255#8 then some (.addressOutOfRange 256)
      else if ir ∈ ([0x82#8, 0xA2#8, 0xA0#8] : List Byte) ∧ s.pc = 253#8 then some (.addressOutOfRange 256)
      else none
    (∀ c, expected = some c → t = raise c s) ∧ (expected = none → t.run ≠ .faulted)

/-- 30_encoding.md section 2 (rule R76, D3) and 60_exceptions.md section 1: an instruction with an illegal register byte
raises `RegisterIndexOutOfRange` with its first illegal one, regA before regB; a well-formed one never raises it. -/
def Obligations.IllegalRegisterBytesFault : Prop :=
  (∀ (i : Instr) (s : State), i.wellFormed = false →
    ∃ c, ((operandBytes i).find? fun x => decide (7 < x.toNat)) = some c ∧
      exec i s = .next (raise (.registerIndexOutOfRange c) s)) ∧
  (∀ (i : Instr) (s t : State) (c : Byte), i.wellFormed = true → exec i s = .next t →
    t.fault = s.fault ∨ t.fault ≠ some ⟨.registerIndexOutOfRange c, s.pc⟩)

/-! ## Invariants -/

/-- 10_state.md sections 8 and 9 (rules R31, R38, R40): the reset state meets the invariant, in which the memory's canonical
form is the model's own representation (log 19, DESIGN CHOICE). -/
def Obligations.ResetMeetsTheInvariant : Prop := State.reset.Inv

/-- 10_state.md section 8 (rule R38, which the spec marks as derived) and rule R31: every step keeps the invariant: the
memory stays 256 cells in canonical form (log 19, the model's own representation), and the fault record is there exactly when `run = FAULTED`, with a cause the
hardware can record, at `pc`. -/
def Obligations.StepKeepsTheInvariant : Prop :=
  ∀ s t : State, s.Inv → step s = .next t → t.Inv

/-- 10_state.md section 8 (rule R38): every state that an image leads to from reset meets the invariant, in which the
memory's canonical form is the model's own representation (log 19, DESIGN CHOICE). -/
def Obligations.ReachableStatesMeetTheInvariant : Prop :=
  ∀ s : State, Reachable s → s.Inv

/-! ## Whole-machine rules -/

/-- 20_memory.md section 1 (rule R51; 95_test_vectors.md part 4, item 5): only PUSH and CALL change a cell, and only the
one at `x[7] - 1`, computed by the model's own `pushSlot`. -/
def Obligations.OnlyPushAndCallChangeMemory : Prop :=
  ∀ (s t : State) (a : Byte), s.mem.wf → step s = .next t → t.memRead a ≠ s.memRead a →
    (s.memRead s.pc = 0x45#8 ∨ s.memRead s.pc = 0x50#8) ∧ pushSlot s = .ok a ∧ a.toNat + 1 = (s.reg .r7).toNat

/-- 10_state.md section 5 (rule R32, D13; 95_test_vectors.md part 4, item 6): `out` changes only by PRN, which appends
the named register's value. -/
def Obligations.OnlyPrnEmits : Prop :=
  ∀ s t : State, step s = .next t →
    t.out = s.out ∨
    (s.memRead s.pc = 0x47#8 ∧ ∃ r, s.memRead (s.pc + 1#8) = Reg.index r ∧ t.out = s.out ++ [s.reg r])

/-- 10_state.md section 8 (rule R38: "`out` only grows") over a run, by at most one value a step. -/
def Obligations.OutputOnlyGrows : Prop :=
  ∀ (k : Nat) (s : State), ∃ l, (runFor k s).out = s.out ++ l ∧ l.length ≤ k

/-- 10_state.md section 5 (rule R32: "The sequence is write-only for the program"): what has been emitted before has no
influence on a step. -/
def Obligations.OutputIsWriteOnly : Prop :=
  ∀ (s t : State) (l : List Byte), step s = .next t →
    ∃ e, t.out = s.out ++ e ∧ step { s with out := l } = .next { t with out := l ++ e }

/-- 10_state.md section 2 (the "Writes" column of rule R22): a step changes no register but those its instruction names
as a destination, and the stack pointer for PUSH, POP, CALL and RET. -/
def Obligations.RegisterWritersAreThoseOfTheTable : Prop :=
  ∀ (s t : State) (q : Reg), step s = .next t → t.reg q ≠ s.reg q →
    (s.memRead s.pc ∈ ([0x82#8, 0xA2#8, 0xA0#8, 0x46#8] : List Byte) ∧ s.memRead (s.pc + 1#8) = q.index) ∨
    (s.memRead s.pc ∈ ([0x45#8, 0x46#8, 0x50#8, 0x11#8] : List Byte) ∧ q = .r7)

/-- 10_state.md section 2 (the "Reads" column of rule R22): a register that the instruction does not name, and does not use
as its stack pointer, has no influence on a step and is carried through it; and one that LDI or POP only writes has no
influence either. -/
def Obligations.UnreadRegistersHaveNoInfluence : Prop :=
  ∀ (s t : State) (q : Reg) (v : Byte), step s = .next t →
    (s.memRead s.pc ∈ ([0x45#8, 0x46#8, 0x50#8, 0x11#8] : List Byte) → q ≠ .r7) →
    ((s.memRead s.pc ∉ ([0x01#8, 0x11#8] : List Byte) → s.memRead (s.pc + 1#8) ≠ q.index) →
      (s.memRead s.pc ∈ ([0xA2#8, 0xA0#8] : List Byte) → s.memRead (s.pc + 2#8) ≠ q.index) →
      step (s.setReg q v) = .next (t.setReg q v)) ∧
    (s.memRead s.pc ∈ ([0x82#8, 0x46#8] : List Byte) → s.memRead (s.pc + 1#8) = q.index → t.run ≠ .faulted →
      step (s.setReg q v) = .next t)

/-- 10_state.md section 4 (rule R27): how each instruction leaves `pc`. CALL leaves the value of `x[regA]`; that for CALL R7
this is the decremented stack pointer, so that the register is read in the state after, is the spec's inference D11
(log 13, DEDUCED). -/
def Obligations.ProgramCounterAfterEachInstruction : Prop :=
  ∀ s t : State, step s = .next t →
    (t.run = .faulted → t.pc = s.pc) ∧
    (t.run ≠ .faulted →
      (s.memRead s.pc ∈ ([0x82#8, 0xA2#8, 0xA0#8] : List Byte) → t.pc.toNat = s.pc.toNat + 3) ∧
      (s.memRead s.pc ∈ ([0x47#8, 0x45#8, 0x46#8] : List Byte) → t.pc.toNat = s.pc.toNat + 2) ∧
      (s.memRead s.pc = 0x01#8 → t.pc = s.pc) ∧
      (s.memRead s.pc = 0x50#8 → ∃ r, s.memRead (s.pc + 1#8) = Reg.index r ∧ t.pc = t.reg r) ∧
      (s.memRead s.pc = 0x11#8 → t.pc = s.memRead (s.reg .r7)))

/-- 40_engine_cycle.md rule R95: after LDI, PRN, MUL, ADD, PUSH or POP has executed, `pc` is `pc + n + 1`, `n` bits 7:6
of the opcode byte, and that is 3 or 2 bytes on. -/
def Obligations.SequentialAdvanceIsOperandCountPlusOne : Prop :=
  ∀ (i : Instr) (s t : State), i ≠ .hlt → i ≠ .ret → (∀ a, i ≠ .call a) → s.run = .running →
    exec i s = .next t → t.run = .running →
    t.pc.toNat = s.pc.toNat + operandCount (opcodeByte i) + 1 ∧
    ((∃ a b, i = .ldi a b ∨ i = .mul a b ∨ i = .add a b) → t.pc.toNat = s.pc.toNat + 3) ∧
    ((∃ a, i = .prn a ∨ i = .push a ∨ i = .pop a) → t.pc.toNat = s.pc.toNat + 2)

/-! ## The instructions: effect, completion, faults -/

/-- 41_load_immediate_and_output.md rule R110 (its faults are D3 and D5): LDI completes for every register, R7 among
them, and every immediate; it faults on an illegal register byte and at `pc = 253`. -/
def Obligations.LdiLoadsTheImmediate : Prop :=
  ∀ (r : Reg) (a imm : Byte) (s : State),
    (s.pc.toNat ≤ 252 → exec (.ldi r.index imm) s = .next ((s.setReg r imm).setPc (s.pc + 3#8))) ∧
    (8 ≤ a.toNat → exec (.ldi a imm) s = .next (raise (.registerIndexOutOfRange a) s)) ∧
    (s.pc = 253#8 → exec (.ldi r.index imm) s = .next (raise (.addressOutOfRange 256) s)) ∧
    encode (.ldi a imm) = [0x82#8, a, imm]

/-- 41_load_immediate_and_output.md rule R111 (D13: PRN never blocks; D3): PRN appends the register's value to `out`; the
output collaborator writes it as an unsigned decimal number. -/
def Obligations.PrnEmitsTheRegister : Prop :=
  ∀ (r : Reg) (a : Byte) (s : State),
    (s.pc.toNat ≤ 253 → exec (.prn r.index) s = .next ((s.emit (s.reg r)).setPc (s.pc + 2#8))) ∧
    (s.emit (s.reg r)).out = s.out ++ [s.reg r] ∧
    (s.emit (s.reg r)).rendered = s.rendered ++ [Nat.repr (s.reg r).toNat] ∧
    (8 ≤ a.toNat → exec (.prn a) s = .next (raise (.registerIndexOutOfRange a) s)) ∧
    encode (.prn a) = [0x47#8, a]

/-- 42_halt.md rule R115 (D10: `pc` stays): HLT sets `run` and nothing else, and no step follows it. -/
def Obligations.HltHalts : Prop :=
  encode .hlt = [0x01#8] ∧
  ∀ s : State, ∃ t, exec .hlt s = .next t ∧ t.run = .halted ∧ t.pc = s.pc ∧ t.regs = s.regs ∧ t.mem = s.mem ∧
    t.out = s.out ∧ t.fault = s.fault ∧ ∀ u, step t ≠ .next u

/-- 43_alu.md rule R120 (D1: modulo 256; its faults are D3 and D5): MUL, with `regA = regB` among the operands. -/
def Obligations.MulMultiplies : Prop :=
  ∀ (r q : Reg) (a b : Byte) (s : State),
    (s.pc.toNat ≤ 252 → ∃ t, exec (.mul r.index q.index) s = .next t ∧
      t = (s.setReg r (t.reg r)).setPc (s.pc + 3#8) ∧
      (t.reg r).toNat = ((s.reg r).toNat * (s.reg q).toNat) % 256) ∧
    (8 ≤ a.toNat → exec (.mul a b) s = .next (raise (.registerIndexOutOfRange a) s)) ∧
    (8 ≤ b.toNat → exec (.mul r.index b) s = .next (raise (.registerIndexOutOfRange b) s)) ∧
    (s.pc = 253#8 → exec (.mul r.index q.index) s = .next (raise (.addressOutOfRange 256) s)) ∧
    encode (.mul a b) = [0xA2#8, a, b]

/-- 43_alu.md rule R121 (D1: modulo 256; its faults are D3 and D5): ADD, with `regA = regB` among the operands. -/
def Obligations.AddAdds : Prop :=
  ∀ (r q : Reg) (a b : Byte) (s : State),
    (s.pc.toNat ≤ 252 → ∃ t, exec (.add r.index q.index) s = .next t ∧
      t = (s.setReg r (t.reg r)).setPc (s.pc + 3#8) ∧
      (t.reg r).toNat = ((s.reg r).toNat + (s.reg q).toNat) % 256) ∧
    (8 ≤ a.toNat → exec (.add a b) s = .next (raise (.registerIndexOutOfRange a) s)) ∧
    (8 ≤ b.toNat → exec (.add r.index b) s = .next (raise (.registerIndexOutOfRange b) s)) ∧
    (s.pc = 253#8 → exec (.add r.index q.index) s = .next (raise (.addressOutOfRange 256) s)) ∧
    encode (.add a b) = [0xA0#8, a, b]

/-- 43_alu.md, Arithmetic laws (rule R123, which the spec marks as derived): ADD and MUL are right for the
two's-complement reading too. -/
def Obligations.AluIsRightForSignedReadings : Prop :=
  ∀ (r q : Reg) (s : State),
    (alu .add r q s).reg r = BitVec.ofInt 8 ((s.reg r).toInt + (s.reg q).toInt) ∧
    (alu .multiply r q s).reg r = BitVec.ofInt 8 ((s.reg r).toInt * (s.reg q).toInt)

/-- 40_engine_cycle.md rule R102: the ALU has two operations, reads the two registers, writes the first, and has no other
output; MUL selects multiply and ADD selects add. -/
def Obligations.AluContract : Prop :=
  (∀ op : AluOp, op = .multiply ∨ op = .add) ∧
  (∀ (op : AluOp) (r q : Reg) (s : State),
    alu op r q s = s.setReg r ((alu op r q s).reg r) ∧
    (op = .multiply → ((alu op r q s).reg r).toNat = ((s.reg r).toNat * (s.reg q).toNat) % 256) ∧
    (op = .add → ((alu op r q s).reg r).toNat = ((s.reg r).toNat + (s.reg q).toNat) % 256)) ∧
  (∀ (r q : Reg) (s : State), s.pc.toNat ≤ 252 →
    exec (.mul r.index q.index) s = .next ((alu .multiply r q s).setPc (s.pc + 3#8)) ∧
    exec (.add r.index q.index) s = .next ((alu .add r q s).setPc (s.pc + 3#8)))

/-- 44_stack.md, PUSH (rules R130, R131): the stack pointer is decremented, the register stored there; that PUSH R7
stores the decremented value is the spec's own reading (D11), the two faults are D3 and D4. -/
def Obligations.PushStoresTheRegister : Prop :=
  ∀ (r : Reg) (a : Byte) (s : State),
    (s.reg .r7 ≠ 0#8 → s.pc.toNat ≤ 253 →
      exec (.push r.index) s = .next (((s.setReg .r7 (s.reg .r7 - 1#8)).memWrite (s.reg .r7 - 1#8)
        (if r = .r7 then s.reg .r7 - 1#8 else s.reg r)).setPc (s.pc + 2#8))) ∧
    (8 ≤ a.toNat → exec (.push a) s = .next (raise (.registerIndexOutOfRange a) s)) ∧
    (s.reg .r7 = 0#8 → exec (.push r.index) s = .next (raise (.addressOutOfRange (-1)) s))

/-- 44_stack.md, POP (rules R132, R133): the top of the stack into the register, then the increment; that POP R7 leaves
the popped value plus one is the spec's own reading (D11), the faults are D3 and D4. -/
def Obligations.PopLoadsTheRegister : Prop :=
  ∀ (r : Reg) (a : Byte) (s : State),
    (r ≠ .r7 → s.reg .r7 ≠ 255#8 → s.pc.toNat ≤ 253 →
      exec (.pop r.index) s =
        .next (((s.setReg r (s.memRead (s.reg .r7))).setReg .r7 (s.reg .r7 + 1#8)).setPc (s.pc + 2#8))) ∧
    (s.memRead (s.reg .r7) ≠ 255#8 → s.pc.toNat ≤ 253 →
      exec (.pop 7#8) s = .next ((s.setReg .r7 (s.memRead (s.reg .r7) + 1#8)).setPc (s.pc + 2#8))) ∧
    (8 ≤ a.toNat → exec (.pop a) s = .next (raise (.registerIndexOutOfRange a) s)) ∧
    (r ≠ .r7 → s.reg .r7 = 255#8 → exec (.pop r.index) s = .next (raise (.addressOutOfRange 256) s)) ∧
    (s.memRead (s.reg .r7) = 255#8 → exec (.pop 7#8) s = .next (raise (.addressOutOfRange 256) s))

/-- 45_call_return.md, CALL (rules R140, R141): the return address is pushed, `pc` takes the register; that CALL R7 goes
to the decremented stack pointer is the spec's own reading (D11), the faults are D3 and D4. The return address fits its
cell. -/
def Obligations.CallPushesAndJumps : Prop :=
  ∀ (r : Reg) (a : Byte) (s : State),
    (s.reg .r7 ≠ 0#8 → s.pc.toNat ≤ 253 →
      exec (.call r.index) s = .next (((s.setReg .r7 (s.reg .r7 - 1#8)).memWrite (s.reg .r7 - 1#8) (s.pc + 2#8)).setPc
        (if r = .r7 then s.reg .r7 - 1#8 else s.reg r)) ∧
      (s.pc + 2#8).toNat = s.pc.toNat + 2) ∧
    (8 ≤ a.toNat → exec (.call a) s = .next (raise (.registerIndexOutOfRange a) s)) ∧
    (s.reg .r7 = 0#8 → exec (.call r.index) s = .next (raise (.addressOutOfRange (-1)) s))

/-- 45_call_return.md rule R142 (its fault is D4): RET pops into `pc`. -/
def Obligations.RetPopsIntoTheProgramCounter : Prop :=
  ∀ s : State,
    (s.reg .r7 ≠ 255#8 → exec .ret s = .next ((s.setReg .r7 (s.reg .r7 + 1#8)).setPc (s.memRead (s.reg .r7)))) ∧
    (s.reg .r7 = 255#8 → exec .ret s = .next (raise (.addressOutOfRange 256) s)) ∧
    encode .ret = [0x11#8]

/-! ## Frames -/

/-- The frame of LDI, MUL and ADD (the Writes lines of rules R110, R120, R121): no register but regA, no cell, no output;
`run` and the fault record only by a fault. -/
def Obligations.RegisterDestinationFrame : Prop :=
  ∀ (i : Instr) (a b : Byte) (s t : State), i = .ldi a b ∨ i = .mul a b ∨ i = .add a b → exec i s = .next t →
    (∀ q : Reg, q.index ≠ a → t.reg q = s.reg q) ∧ (∀ m, t.memRead m = s.memRead m) ∧ t.out = s.out ∧
    ((t.run = s.run ∧ t.fault = s.fault) ∨ ∃ c, t = raise c s)

/-- The frame of PRN and HLT (the Writes lines of rules R111, R115): no register and no cell; HLT emits nothing and leaves
`pc` and the fault record; PRN leaves `run` and the fault record unless it faults, and then emits nothing. -/
def Obligations.OutputAndHaltFrame : Prop :=
  ∀ (i : Instr) (a : Byte) (s t : State), i = .prn a ∨ i = .hlt → exec i s = .next t →
    (∀ q : Reg, t.reg q = s.reg q) ∧ (∀ m, t.memRead m = s.memRead m) ∧
    (i = .hlt → t.out = s.out ∧ t.pc = s.pc ∧ t.fault = s.fault) ∧
    (i = .prn a → (t.run = s.run ∧ t.fault = s.fault) ∨ ∃ c, t = raise c s)

/-- The frame of PUSH and CALL (the Writes lines of rules R130, R140): no register but the stack pointer, no cell but the
one at the address the meaning's own `pushSlot` computes (none where there is no such address), no output; `run` and the
fault record only by a fault. -/
def Obligations.StoringFrame : Prop :=
  ∀ (i : Instr) (a : Byte) (s t : State), s.mem.wf → i = .push a ∨ i = .call a → exec i s = .next t →
    (∀ q : Reg, q ≠ .r7 → t.reg q = s.reg q) ∧ t.out = s.out ∧
    (∀ slot, pushSlot s = .ok slot → ∀ m, m ≠ slot → t.memRead m = s.memRead m) ∧
    (∀ c, pushSlot s = .error c → ∀ m, t.memRead m = s.memRead m) ∧
    ((t.run = s.run ∧ t.fault = s.fault) ∨ ∃ c, t = raise c s)

/-- The frame of POP and RET (the Writes lines of rules R132, R142): no register but the stack pointer and, for POP, regA;
no cell, no output; `run` and the fault record only by a fault. -/
def Obligations.PoppingFrame : Prop :=
  ∀ (i : Instr) (a : Byte) (s t : State), i = .pop a ∨ i = .ret → exec i s = .next t →
    (∀ q : Reg, q ≠ .r7 → i = .ret ∨ q.index ≠ a → t.reg q = s.reg q) ∧ (∀ m, t.memRead m = s.memRead m) ∧
    t.out = s.out ∧ ((t.run = s.run ∧ t.fault = s.fault) ∨ ∃ c, t = raise c s)

/-! ## The stack and the call protocol over steps -/

/-- 44_stack.md, Properties (rule R134, which the spec marks as derived; 95_test_vectors.md part 4, item 9): PUSH then POP
of one register, by two steps of the engine, restores every register, the stack pointer among them; the one cell below
the stack keeps the value. The push must not overwrite the POP about to run. -/
def Obligations.PushThenPopRestores : Prop :=
  ∀ (r : Reg) (s : State), s.mem.wf → s.run = .running → r ≠ .r7 → s.reg .r7 ≠ 0#8 → s.pc.toNat ≤ 251 →
    s.memRead s.pc = 0x45#8 → s.memRead (s.pc + 1#8) = r.index →
    s.memRead (s.pc + 2#8) = 0x46#8 → s.memRead (s.pc + 3#8) = r.index →
    s.reg .r7 - 1#8 ≠ s.pc + 2#8 → s.reg .r7 - 1#8 ≠ s.pc + 3#8 →
    ∃ t u, step s = .next t ∧ step t = .next u ∧ u.regs = s.regs ∧ u.pc = s.pc + 4#8 ∧
      u.run = .running ∧ u.fault = s.fault ∧ u.out = s.out ∧
      ∀ m, u.memRead m = if m = s.reg .r7 - 1#8 then s.reg r else s.memRead m

/-- 45_call_return.md, The protocol (rule R143, source property T4; 95_test_vectors.md part 4, item 10): a CALL, then any
subroutine of any number of steps that stands at a RET with the stack pointer and the byte it points at as they were on
entry, then that RET: execution resumes at the instruction after the CALL with the stack pointer of before it. -/
def Obligations.ReturnResumesAfterTheCall : Prop :=
  ∀ (s t u : State) (k : Nat), s.mem.wf → s.memRead s.pc = 0x50#8 → step s = .next t → t.run = .running →
    runFor k t = u → u.run = .running → u.pc.toNat ≤ 253 → u.memRead u.pc = 0x11#8 →
    u.reg .r7 = t.reg .r7 → u.memRead (u.reg .r7) = t.memRead (t.reg .r7) →
    ∃ w, step u = .next w ∧ w.run = .running ∧ w.pc.toNat = s.pc.toNat + 2 ∧ w.reg .r7 = s.reg .r7

/-- 44_stack.md, Properties (rule R135, which the spec marks as derived): what is pushed last is popped first. Two pushes
and two pops, of registers other than the stack pointer, swap as a stack does and restore the stack pointer. -/
def Obligations.LastPushedIsFirstPopped : Prop :=
  ∀ (p q r v : Reg) (s : State), s.mem.wf → p ≠ .r7 → q ≠ .r7 → r ≠ .r7 → v ≠ .r7 → r ≠ v →
    2 ≤ (s.reg .r7).toNat → s.pc.toNat ≤ 247 →
    ∃ s₁ s₂ s₃ s₄, exec (.push p.index) s = .next s₁ ∧ exec (.push q.index) s₁ = .next s₂ ∧
      exec (.pop r.index) s₂ = .next s₃ ∧ exec (.pop v.index) s₃ = .next s₄ ∧
      s₄.reg r = s.reg q ∧ s₄.reg v = s.reg p ∧ s₄.reg .r7 = s.reg .r7

/-- 20_memory.md section 5 (rule R68, D14, which the spec marks as derived): the byte PUSH or CALL stores is what the very
next fetch reads, wherever it lies among the three bytes fetched. -/
def Obligations.StoresReachTheNextFetch : Prop :=
  ∀ (r : Reg) (s t : State) (f : Fetched) (v : Byte), s.mem.wf → s.reg .r7 ≠ 0#8 → s.pc.toNat ≤ 253 →
    ((exec (.push r.index) s = .next t ∧ v = if r = .r7 then s.reg .r7 - 1#8 else s.reg r) ∨
      (exec (.call r.index) s = .next t ∧ v = s.pc + 2#8)) →
    fetch t = .ok f →
    (t.pc = s.reg .r7 - 1#8 → f.ir = v) ∧ (t.pc + 1#8 = s.reg .r7 - 1#8 → f.a = v) ∧
    (t.pc + 2#8 = s.reg .r7 - 1#8 → f.b = v)
end

