-- ==== Sys2Proof/Laws/Decode.lean ====
section
/-! SUPPORT. What the decoder can answer, said once. -/

namespace Sys2Proof

/-- One row of the opcode map: it is taken on its own opcode byte, otherwise the rows after it decide. -/
theorem find_row (ir a b : Byte) (row : OpRow) (rows : List OpRow) :
    ((row :: rows).find? fun r => r.opcode == ir).map (fun r => r.build a b) =
      if ir = row.opcode then some (row.build a b)
      else (rows.find? fun r => r.opcode == ir).map (fun r => r.build a b) := by
  by_cases h : ir = row.opcode
  · simp [h]
  · simp [h, Ne.symm h]

/-- The lookup is the nine-way case on the whole opcode byte. -/
theorem decodeWindow_eq (ir a b : Byte) : decodeWindow ir a b =
    if ir = 0x82#8 then some (.ldi a b) else if ir = 0x47#8 then some (.prn a) else if ir = 0x01#8 then some .hlt
    else if ir = 0xA2#8 then some (.mul a b) else if ir = 0xA0#8 then some (.add a b)
    else if ir = 0x45#8 then some (.push a) else if ir = 0x46#8 then some (.pop a)
    else if ir = 0x50#8 then some (.call a) else if ir = 0x11#8 then some .ret else none := by
  simp only [decodeWindow, opcodeTable, find_row, List.find?_nil, Option.map_none]

/-- The instruction read carries the opcode byte it was read from, and its operands are the bytes fetched. -/
theorem decodeWindow_some {ir a b : Byte} {i : Instr} (h : decodeWindow ir a b = some i) :
    opcodeByte i = ir ∧ operandBytes i = [a, b].take (operandCount ir) := by
  rw [decodeWindow_eq] at h
  repeat' split at h
  all_goals first
    | (injection h with h; subst h; subst_vars; exact ⟨rfl, by simp [operandCount, operandBytes]⟩)
    | cases h

theorem operandCount_opcodeByte (i : Instr) : operandCount (opcodeByte i) = (operandBytes i).length := by
  cases i <;> simp [operandCount, opcodeByte, operandBytes]

/-- The nine opcode bytes are exactly those with an instruction. -/
theorem decodeWindow_isNone_iff (ir a b : Byte) :
    decodeWindow ir a b = none ↔ decodeWindow ir 0#8 0#8 = none := by
  simp [decodeWindow]

end Sys2Proof
end

