-- ==== Sys2Proof/Laws/State.lean ====
section
/-! SUPPORT. One lemma per field per update of the state, so that no later proof unfolds a record update. The normal form
of the stack pointer is `s.reg .r7`, of its update `s.setReg .r7 v`. -/

namespace Sys2Proof.Machine

/-! ## The register file -/

theorem RegFile.get_set (x : RegFile) (r q : Reg) (v : Byte) :
    (x.set r v).get q = if q = r then v else x.get q := by
  cases r <;> cases q <;> rfl

theorem RegFile.ext_get {x y : RegFile} (h : ∀ r, x.get r = y.get r) : x = y := by
  cases x; cases y
  simp only [RegFile.mk.injEq]
  exact ⟨h .r0, h .r1, h .r2, h .r3, h .r4, h .r5, h .r6, h .r7⟩

@[simp] theorem State.sp_eq (s : State) : s.sp = s.reg .r7 := rfl
@[simp] theorem State.setSp_eq (s : State) (v : Byte) : s.setSp v = s.setReg .r7 v := rfl
theorem State.regs_get (s : State) (r : Reg) : s.regs.get r = s.reg r := rfl

theorem State.reg_setReg (s : State) (r q : Reg) (v : Byte) :
    (s.setReg r v).reg q = if q = r then v else s.reg q := RegFile.get_set s.regs r q v

theorem State.reg_setReg_same (s : State) (r : Reg) (v : Byte) : (s.setReg r v).reg r = v := by
  simp [State.reg_setReg]

theorem State.reg_setReg_of_ne (s : State) {r q : Reg} (v : Byte) (h : q ≠ r) : (s.setReg r v).reg q = s.reg q := by
  simp [State.reg_setReg, h]

/-! ## Register write -/

@[simp] theorem State.setReg_regs (s : State) (r : Reg) (v : Byte) : (s.setReg r v).regs = s.regs.set r v := rfl
@[simp] theorem State.setReg_pc (s : State) (r : Reg) (v : Byte) : (s.setReg r v).pc = s.pc := rfl
@[simp] theorem State.setReg_mem (s : State) (r : Reg) (v : Byte) : (s.setReg r v).mem = s.mem := rfl
@[simp] theorem State.setReg_run (s : State) (r : Reg) (v : Byte) : (s.setReg r v).run = s.run := rfl
@[simp] theorem State.setReg_fault (s : State) (r : Reg) (v : Byte) : (s.setReg r v).fault = s.fault := rfl
@[simp] theorem State.setReg_out (s : State) (r : Reg) (v : Byte) : (s.setReg r v).out = s.out := rfl
@[simp] theorem State.setReg_memRead (s : State) (r : Reg) (v a : Byte) : (s.setReg r v).memRead a = s.memRead a := rfl

/-! ## Memory write -/

@[simp] theorem State.memWrite_regs (s : State) (a v : Byte) : (s.memWrite a v).regs = s.regs := rfl
@[simp] theorem State.memWrite_pc (s : State) (a v : Byte) : (s.memWrite a v).pc = s.pc := rfl
@[simp] theorem State.memWrite_mem (s : State) (a v : Byte) : (s.memWrite a v).mem = s.mem.write a.toNat v := rfl
@[simp] theorem State.memWrite_run (s : State) (a v : Byte) : (s.memWrite a v).run = s.run := rfl
@[simp] theorem State.memWrite_fault (s : State) (a v : Byte) : (s.memWrite a v).fault = s.fault := rfl
@[simp] theorem State.memWrite_out (s : State) (a v : Byte) : (s.memWrite a v).out = s.out := rfl
@[simp] theorem State.memWrite_reg (s : State) (a v : Byte) (r : Reg) : (s.memWrite a v).reg r = s.reg r := rfl

/-! ## Program counter write -/

@[simp] theorem State.setPc_regs (s : State) (t : Byte) : (s.setPc t).regs = s.regs := rfl
@[simp] theorem State.setPc_pc (s : State) (t : Byte) : (s.setPc t).pc = t := rfl
@[simp] theorem State.setPc_mem (s : State) (t : Byte) : (s.setPc t).mem = s.mem := rfl
@[simp] theorem State.setPc_run (s : State) (t : Byte) : (s.setPc t).run = s.run := rfl
@[simp] theorem State.setPc_fault (s : State) (t : Byte) : (s.setPc t).fault = s.fault := rfl
@[simp] theorem State.setPc_out (s : State) (t : Byte) : (s.setPc t).out = s.out := rfl
@[simp] theorem State.setPc_reg (s : State) (t : Byte) (r : Reg) : (s.setPc t).reg r = s.reg r := rfl
@[simp] theorem State.setPc_memRead (s : State) (t a : Byte) : (s.setPc t).memRead a = s.memRead a := rfl

/-! ## Output -/

@[simp] theorem State.emit_regs (s : State) (v : Byte) : (s.emit v).regs = s.regs := rfl
@[simp] theorem State.emit_pc (s : State) (v : Byte) : (s.emit v).pc = s.pc := rfl
@[simp] theorem State.emit_mem (s : State) (v : Byte) : (s.emit v).mem = s.mem := rfl
@[simp] theorem State.emit_run (s : State) (v : Byte) : (s.emit v).run = s.run := rfl
@[simp] theorem State.emit_fault (s : State) (v : Byte) : (s.emit v).fault = s.fault := rfl
@[simp] theorem State.emit_out (s : State) (v : Byte) : (s.emit v).out = s.out ++ [v] := rfl
@[simp] theorem State.emit_reg (s : State) (v : Byte) (r : Reg) : (s.emit v).reg r = s.reg r := rfl
@[simp] theorem State.emit_memRead (s : State) (v a : Byte) : (s.emit v).memRead a = s.memRead a := rfl

/-! ## Halt -/

@[simp] theorem State.halt_regs (s : State) : s.halt.regs = s.regs := rfl
@[simp] theorem State.halt_pc (s : State) : s.halt.pc = s.pc := rfl
@[simp] theorem State.halt_mem (s : State) : s.halt.mem = s.mem := rfl
@[simp] theorem State.halt_run (s : State) : s.halt.run = .halted := rfl
@[simp] theorem State.halt_fault (s : State) : s.halt.fault = s.fault := rfl
@[simp] theorem State.halt_out (s : State) : s.halt.out = s.out := rfl
@[simp] theorem State.halt_reg (s : State) (r : Reg) : s.halt.reg r = s.reg r := rfl
@[simp] theorem State.halt_memRead (s : State) (a : Byte) : s.halt.memRead a = s.memRead a := rfl

/-! ## Fault entry -/

@[simp] theorem raise_regs (c : FaultCause) (s : State) : (raise c s).regs = s.regs := rfl
@[simp] theorem raise_pc (c : FaultCause) (s : State) : (raise c s).pc = s.pc := rfl
@[simp] theorem raise_mem (c : FaultCause) (s : State) : (raise c s).mem = s.mem := rfl
@[simp] theorem raise_run (c : FaultCause) (s : State) : (raise c s).run = .faulted := rfl
@[simp] theorem raise_fault (c : FaultCause) (s : State) : (raise c s).fault = some ⟨c, s.pc⟩ := rfl
@[simp] theorem raise_out (c : FaultCause) (s : State) : (raise c s).out = s.out := rfl
@[simp] theorem raise_reg (c : FaultCause) (s : State) (r : Reg) : (raise c s).reg r = s.reg r := rfl
@[simp] theorem raise_memRead (c : FaultCause) (s : State) (a : Byte) : (raise c s).memRead a = s.memRead a := rfl

end Sys2Proof.Machine
end

