-- ==== Sys2Proof/Laws/Ops.lean ====
section
/-! SUPPORT. What each shared operation can do, said once. -/

namespace Sys2Proof.Machine

/-- A legal address passes as itself. -/
theorem checkAddr_ok {v : Int} {a : Byte} : checkAddr v = .ok a ↔ v = a.toNat := by
  unfold checkAddr
  split
  · rename_i h
    simp only [Config.addrMax] at h
    simp only [Except.ok.injEq]
    constructor
    · rintro rfl
      rw [BitVec.toNat_ofInt]
      omega
    · rintro rfl
      apply BitVec.eq_of_toNat_eq
      rw [BitVec.toNat_ofInt]
      omega
  · rename_i h
    simp only [Config.addrMax, not_and, not_le] at h
    simp only [reduceCtorEq, false_iff]
    have := a.isLt
    omega

theorem checkAddr_toNat (a : Byte) : checkAddr a.toNat = .ok a := checkAddr_ok.2 rfl

/-- An address outside 0..255 raises, and with that address. -/
theorem checkAddr_error {v : Int} {c : FaultCause} :
    checkAddr v = .error c ↔ (v < 0 ∨ 255 < v) ∧ c = .addressOutOfRange v := by
  unfold checkAddr
  split <;> rename_i h <;> simp only [Config.addrMax] at h <;> simp <;> grind

theorem checkAddr_of_lt {v : Int} (h : v < 0) : checkAddr v = .error (.addressOutOfRange v) :=
  checkAddr_error.2 ⟨.inl h, rfl⟩

theorem checkAddr_of_gt {v : Int} (h : 255 < v) : checkAddr v = .error (.addressOutOfRange v) :=
  checkAddr_error.2 ⟨.inr h, rfl⟩

@[simp] theorem regOperand_index (r : Reg) : regOperand r.index = .ok r := by cases r <;> rfl

theorem Reg.index_toNat_le (r : Reg) : r.index.toNat ≤ 7 := by cases r <;> decide

theorem Reg.index_injective {r q : Reg} (h : r.index = q.index) : r = q := by
  have := congrArg regOperand h
  simpa using this

theorem regOperand_of_gt {b : Byte} (h : 7 < b.toNat) : regOperand b = .error (.registerIndexOutOfRange b) := by
  unfold regOperand
  split <;> first | omega | rfl

/-- A legal register byte is the index of a register. -/
theorem exists_reg_of_le {b : Byte} (h : b.toNat ≤ 7) : ∃ r : Reg, b = r.index := by
  obtain h | h | h | h | h | h | h | h : b.toNat = 0 ∨ b.toNat = 1 ∨ b.toNat = 2 ∨ b.toNat = 3 ∨ b.toNat = 4 ∨
      b.toNat = 5 ∨ b.toNat = 6 ∨ b.toNat = 7 := by omega
  · exact ⟨.r0, BitVec.eq_of_toNat_eq h⟩
  · exact ⟨.r1, BitVec.eq_of_toNat_eq h⟩
  · exact ⟨.r2, BitVec.eq_of_toNat_eq h⟩
  · exact ⟨.r3, BitVec.eq_of_toNat_eq h⟩
  · exact ⟨.r4, BitVec.eq_of_toNat_eq h⟩
  · exact ⟨.r5, BitVec.eq_of_toNat_eq h⟩
  · exact ⟨.r6, BitVec.eq_of_toNat_eq h⟩
  · exact ⟨.r7, BitVec.eq_of_toNat_eq h⟩

theorem regOperand_ok {b : Byte} {r : Reg} : regOperand b = .ok r ↔ b = r.index := by
  refine ⟨fun h => ?_, fun h => h ▸ regOperand_index r⟩
  by_cases hb : 7 < b.toNat
  · simp [regOperand_of_gt hb] at h
  · obtain ⟨q, rfl⟩ := exists_reg_of_le (Nat.le_of_not_lt hb)
    rw [regOperand_index, Except.ok.injEq] at h
    rw [h]

theorem regOperand_error {b : Byte} {c : FaultCause} :
    regOperand b = .error c ↔ 7 < b.toNat ∧ c = .registerIndexOutOfRange b := by
  refine ⟨fun h => ?_, fun ⟨h, hc⟩ => hc ▸ regOperand_of_gt h⟩
  by_cases hb : 7 < b.toNat
  · rw [regOperand_of_gt hb, Except.error.injEq] at h
    exact ⟨hb, h.symm⟩
  · obtain ⟨q, rfl⟩ := exists_reg_of_le (Nat.le_of_not_lt hb)
    simp at h

/-- The slot of a push is one below the stack pointer. -/
theorem pushSlot_ok {s : State} {a : Byte} : pushSlot s = .ok a ↔ s.reg .r7 ≠ 0#8 ∧ a = s.reg .r7 - 1#8 := by
  rw [pushSlot, checkAddr_ok, State.sp_eq]
  bv_omega

theorem pushSlot_error {s : State} {c : FaultCause} :
    pushSlot s = .error c ↔ s.reg .r7 = 0#8 ∧ c = .addressOutOfRange (-1) := by
  rw [pushSlot, checkAddr_error, State.sp_eq]
  constructor
  · rintro ⟨h, rfl⟩
    have h0 : (s.reg .r7).toNat = 0 := by have := (s.reg .r7).isLt; omega
    exact ⟨BitVec.eq_of_toNat_eq h0, by simp [h0]⟩
  · rintro ⟨h, rfl⟩
    simp [h]

/-- A pop's increment, on what register 7 holds. -/
theorem popPointer_ok {v a : Byte} : popPointer v = .ok a ↔ v ≠ 255#8 ∧ a = v + 1#8 := by
  rw [popPointer, checkAddr_ok]
  bv_omega

theorem popPointer_error {v : Byte} {c : FaultCause} :
    popPointer v = .error c ↔ v = 255#8 ∧ c = .addressOutOfRange 256 := by
  rw [popPointer, checkAddr_error]
  constructor
  · rintro ⟨h, rfl⟩
    have h0 : v.toNat = 255 := by have := v.isLt; omega
    exact ⟨BitVec.eq_of_toNat_eq h0, by simp [h0]⟩
  · rintro ⟨h, rfl⟩
    simp [h]

theorem successor_ok {i : Instr} {s : State} {a : Byte} :
    successor i s = .ok a ↔ a.toNat = s.pc.toNat + operandCount (opcodeByte i) + 1 := by
  rw [successor, checkAddr_ok]
  omega

theorem successor_error {i : Instr} {s : State} {c : FaultCause} :
    successor i s = .error c ↔ 255 < s.pc.toNat + operandCount (opcodeByte i) + 1 ∧
      c = .addressOutOfRange (s.pc.toNat + operandCount (opcodeByte i) + 1) := by
  rw [successor, checkAddr_error]
  grind

/-- A handler answers a next state always: its effect, or the fault of its checks taken in the state it began in. -/
theorem settle_cases {s t : State} {e : Except FaultCause State} (h : settle s e = .next t) :
    e = .ok t ∨ ∃ c, e = .error c ∧ t = raise c s := by
  cases e with
  | ok u => left; simpa [settle] using h
  | error c => right; exact ⟨c, rfl, by simpa [settle] using h.symm⟩

/-- The end of a handler always answers a next state. -/
theorem settle_next (s : State) (e : Except FaultCause State) : ∃ t, settle s e = .next t := by
  cases e
  · exact ⟨_, rfl⟩
  · exact ⟨_, rfl⟩

@[simp] theorem settle_ok (s t : State) : settle s (.ok t) = .next t := rfl
@[simp] theorem settle_error (s : State) (c : FaultCause) : settle s (.error c) = .next (raise c s) := rfl

end Sys2Proof.Machine
end

