-- ==== Sys2Proof/Laws/Meanings.lean ====
section
/-! SUPPORT. What each meaning can do, said once: its effect, or one of its faults with the condition that raises it. -/

namespace Sys2Proof.Machine

/-- The successor of a three-byte instruction. -/
theorem successor_three {i : Instr} {s : State} (hi : operandCount (opcodeByte i) = 2) : successor i s =
    if s.pc.toNat ≤ 252 then .ok (s.pc + 3#8) else .error (.addressOutOfRange (s.pc.toNat + 3)) := by
  split
  · rw [successor_ok, hi]; bv_omega
  · rw [successor_error, hi]; exact ⟨by omega, by congr 1⟩

/-- The successor of a two-byte instruction. -/
theorem successor_two {i : Instr} {s : State} (hi : operandCount (opcodeByte i) = 1) : successor i s =
    if s.pc.toNat ≤ 253 then .ok (s.pc + 2#8) else .error (.addressOutOfRange (s.pc.toNat + 2)) := by
  split
  · rw [successor_ok, hi]; bv_omega
  · rw [successor_error, hi]; exact ⟨by omega, by congr 1⟩

theorem execLdi_cases {a imm : Byte} {s t : State} (h : exec (.ldi a imm) s = .next t) :
    (∃ ra, a = Reg.index ra ∧ s.pc.toNat ≤ 252 ∧ t = (s.setReg ra imm).setPc (s.pc + 3#8)) ∨
    (7 < a.toNat ∧ t = raise (.registerIndexOutOfRange a) s) ∨
    (a.toNat ≤ 7 ∧ 252 < s.pc.toNat ∧ t = raise (.addressOutOfRange (s.pc.toNat + 3)) s) := by
  have hn : operandCount (opcodeByte (.ldi a imm)) = 2 := by simp [operandCount, opcodeByte]
  simp only [exec, execLdi, successor_three hn] at h
  by_cases ha : 7 < a.toNat
  · rw [regOperand_of_gt ha] at h
    exact .inr (.inl ⟨ha, by simpa [settle, bind, Except.bind] using h.symm⟩)
  · obtain ⟨ra, rfl⟩ := exists_reg_of_le (Nat.le_of_not_lt ha)
    by_cases hp : s.pc.toNat ≤ 252
    · rw [regOperand_index, if_pos hp] at h
      exact .inl ⟨ra, rfl, hp, by simpa [settle, bind, Except.bind, pure, Except.pure] using h.symm⟩
    · rw [regOperand_index, if_neg hp] at h
      exact .inr (.inr ⟨by omega, by omega, by simpa [settle, bind, Except.bind] using h.symm⟩)

theorem execPrn_cases {a : Byte} {s t : State} (h : exec (.prn a) s = .next t) :
    (∃ ra, a = Reg.index ra ∧ s.pc.toNat ≤ 253 ∧ t = (s.emit (s.reg ra)).setPc (s.pc + 2#8)) ∨
    (7 < a.toNat ∧ t = raise (.registerIndexOutOfRange a) s) ∨
    (a.toNat ≤ 7 ∧ 253 < s.pc.toNat ∧ t = raise (.addressOutOfRange (s.pc.toNat + 2)) s) := by
  have hn : operandCount (opcodeByte (.prn a)) = 1 := by simp [operandCount, opcodeByte]
  simp only [exec, execPrn, successor_two hn] at h
  by_cases ha : 7 < a.toNat
  · rw [regOperand_of_gt ha] at h
    exact .inr (.inl ⟨ha, by simpa [settle, bind, Except.bind] using h.symm⟩)
  · obtain ⟨ra, rfl⟩ := exists_reg_of_le (Nat.le_of_not_lt ha)
    by_cases hp : s.pc.toNat ≤ 253
    · rw [regOperand_index, if_pos hp] at h
      exact .inl ⟨ra, rfl, hp, by simpa [settle, bind, Except.bind, pure, Except.pure] using h.symm⟩
    · rw [regOperand_index, if_neg hp] at h
      exact .inr (.inr ⟨by omega, by omega, by simpa [settle, bind, Except.bind] using h.symm⟩)

theorem execHlt_cases {s t : State} (h : exec .hlt s = .next t) : t = s.halt := by
  simpa [exec, execHlt] using h.symm

/-- The shape MUL and ADD share: regA, then regB, then the successor. -/
theorem settle_alu_cases {op : AluOp} {i : Instr} {a b : Byte} {s t : State} (hn : operandCount (opcodeByte i) = 2)
    (h : settle s (do
      let ra ← regOperand a
      let rb ← regOperand b
      let next ← successor i s
      pure ((alu op ra rb s).setPc next)) = .next t) :
    (∃ ra rb, a = Reg.index ra ∧ b = Reg.index rb ∧ s.pc.toNat ≤ 252 ∧ t = (alu op ra rb s).setPc (s.pc + 3#8)) ∨
    (7 < a.toNat ∧ t = raise (.registerIndexOutOfRange a) s) ∨
    (a.toNat ≤ 7 ∧ 7 < b.toNat ∧ t = raise (.registerIndexOutOfRange b) s) ∨
    (a.toNat ≤ 7 ∧ b.toNat ≤ 7 ∧ 252 < s.pc.toNat ∧ t = raise (.addressOutOfRange (s.pc.toNat + 3)) s) := by
  simp only [successor_three hn] at h
  by_cases ha : 7 < a.toNat
  · rw [regOperand_of_gt ha] at h
    exact .inr (.inl ⟨ha, by simpa [settle, bind, Except.bind] using h.symm⟩)
  obtain ⟨ra, rfl⟩ := exists_reg_of_le (Nat.le_of_not_lt ha)
  by_cases hb : 7 < b.toNat
  · rw [regOperand_index, regOperand_of_gt hb] at h
    exact .inr (.inr (.inl ⟨by omega, hb, by simpa [settle, bind, Except.bind] using h.symm⟩))
  obtain ⟨rb, rfl⟩ := exists_reg_of_le (Nat.le_of_not_lt hb)
  by_cases hp : s.pc.toNat ≤ 252
  · rw [regOperand_index, regOperand_index, if_pos hp] at h
    exact .inl ⟨ra, rb, rfl, rfl, hp, by simpa [settle, bind, Except.bind, pure, Except.pure] using h.symm⟩
  · rw [regOperand_index, regOperand_index, if_neg hp] at h
    exact .inr (.inr (.inr ⟨by omega, by omega, by omega, by simpa [settle, bind, Except.bind] using h.symm⟩))

theorem execMul_cases {a b : Byte} {s t : State} (h : exec (.mul a b) s = .next t) :
    (∃ ra rb, a = Reg.index ra ∧ b = Reg.index rb ∧ s.pc.toNat ≤ 252 ∧
      t = (alu .multiply ra rb s).setPc (s.pc + 3#8)) ∨
    (7 < a.toNat ∧ t = raise (.registerIndexOutOfRange a) s) ∨
    (a.toNat ≤ 7 ∧ 7 < b.toNat ∧ t = raise (.registerIndexOutOfRange b) s) ∨
    (a.toNat ≤ 7 ∧ b.toNat ≤ 7 ∧ 252 < s.pc.toNat ∧ t = raise (.addressOutOfRange (s.pc.toNat + 3)) s) :=
  settle_alu_cases (i := .mul a b) (by simp [operandCount, opcodeByte]) h

theorem execAdd_cases {a b : Byte} {s t : State} (h : exec (.add a b) s = .next t) :
    (∃ ra rb, a = Reg.index ra ∧ b = Reg.index rb ∧ s.pc.toNat ≤ 252 ∧
      t = (alu .add ra rb s).setPc (s.pc + 3#8)) ∨
    (7 < a.toNat ∧ t = raise (.registerIndexOutOfRange a) s) ∨
    (a.toNat ≤ 7 ∧ 7 < b.toNat ∧ t = raise (.registerIndexOutOfRange b) s) ∨
    (a.toNat ≤ 7 ∧ b.toNat ≤ 7 ∧ 252 < s.pc.toNat ∧ t = raise (.addressOutOfRange (s.pc.toNat + 3)) s) :=
  settle_alu_cases (i := .add a b) (by simp [operandCount, opcodeByte]) h

theorem execPush_cases {a : Byte} {s t : State} (h : exec (.push a) s = .next t) :
    (∃ ra slot, a = Reg.index ra ∧ pushSlot s = .ok slot ∧ s.pc.toNat ≤ 253 ∧
      t = ((s.setReg .r7 slot).memWrite slot ((s.setReg .r7 slot).reg ra)).setPc (s.pc + 2#8)) ∨
    (7 < a.toNat ∧ t = raise (.registerIndexOutOfRange a) s) ∨
    (a.toNat ≤ 7 ∧ s.reg .r7 = 0#8 ∧ t = raise (.addressOutOfRange (-1)) s) ∨
    (a.toNat ≤ 7 ∧ s.reg .r7 ≠ 0#8 ∧ 253 < s.pc.toNat ∧ t = raise (.addressOutOfRange (s.pc.toNat + 2)) s) := by
  have hn : operandCount (opcodeByte (.push a)) = 1 := by simp [operandCount, opcodeByte]
  simp only [exec, execPush, successor_two hn] at h
  by_cases ha : 7 < a.toNat
  · rw [regOperand_of_gt ha] at h
    exact .inr (.inl ⟨ha, by simpa [settle, bind, Except.bind] using h.symm⟩)
  obtain ⟨ra, rfl⟩ := exists_reg_of_le (Nat.le_of_not_lt ha)
  rw [regOperand_index] at h
  by_cases hs : s.reg .r7 = 0#8
  · rw [pushSlot_error.2 ⟨hs, rfl⟩] at h
    exact .inr (.inr (.inl ⟨by omega, hs, by simpa [settle, bind, Except.bind] using h.symm⟩))
  have hslot := pushSlot_ok.2 ⟨hs, rfl⟩
  by_cases hp : s.pc.toNat ≤ 253
  · rw [hslot, if_pos hp] at h
    exact .inl ⟨ra, _, rfl, hslot, hp,
      by simpa [settle, pushAt, bind, Except.bind, pure, Except.pure] using h.symm⟩
  · rw [hslot, if_neg hp] at h
    exact .inr (.inr (.inr ⟨by omega, hs, by omega, by simpa [settle, bind, Except.bind] using h.symm⟩))

theorem execPop_cases {a : Byte} {s t : State} (h : exec (.pop a) s = .next t) :
    (∃ ra sp', a = Reg.index ra ∧
      popPointer ((s.setReg ra (s.memRead (s.reg .r7))).reg .r7) = .ok sp' ∧ s.pc.toNat ≤ 253 ∧
      t = ((s.setReg ra (s.memRead (s.reg .r7))).setReg .r7 sp').setPc (s.pc + 2#8)) ∨
    (7 < a.toNat ∧ t = raise (.registerIndexOutOfRange a) s) ∨
    (∃ ra, a = Reg.index ra ∧ (s.setReg ra (s.memRead (s.reg .r7))).reg .r7 = 255#8 ∧
      t = raise (.addressOutOfRange 256) s) ∨
    (a.toNat ≤ 7 ∧ 253 < s.pc.toNat ∧ t = raise (.addressOutOfRange (s.pc.toNat + 2)) s) := by
  have hn : operandCount (opcodeByte (.pop a)) = 1 := by simp [operandCount, opcodeByte]
  simp only [exec, execPop, successor_two hn, State.sp_eq, State.setSp_eq] at h
  by_cases ha : 7 < a.toNat
  · rw [regOperand_of_gt ha] at h
    exact .inr (.inl ⟨ha, by simpa [settle, bind, Except.bind] using h.symm⟩)
  obtain ⟨ra, rfl⟩ := exists_reg_of_le (Nat.le_of_not_lt ha)
  simp only [regOperand_index, bind, Except.bind] at h
  by_cases hv : (s.setReg ra (s.memRead (s.reg .r7))).reg .r7 = 255#8
  · rw [popPointer_error.2 ⟨hv, rfl⟩] at h
    exact .inr (.inr (.inl ⟨ra, rfl, hv, by simpa [settle] using h.symm⟩))
  have hpop := popPointer_ok.2 ⟨hv, rfl⟩
  by_cases hp : s.pc.toNat ≤ 253
  · rw [hpop, if_pos hp] at h
    exact .inl ⟨ra, _, rfl, hpop, hp, by simpa [settle, pure, Except.pure] using h.symm⟩
  · rw [hpop, if_neg hp] at h
    exact .inr (.inr (.inr ⟨by omega, by omega, by simpa [settle] using h.symm⟩))

theorem execCall_cases {a : Byte} {s t : State} (h : exec (.call a) s = .next t) :
    (∃ ra slot, a = Reg.index ra ∧ pushSlot s = .ok slot ∧
      t = ((s.setReg .r7 slot).memWrite slot (s.pc + 2#8)).setPc ((s.setReg .r7 slot).reg ra)) ∨
    (7 < a.toNat ∧ t = raise (.registerIndexOutOfRange a) s) ∨
    (a.toNat ≤ 7 ∧ s.reg .r7 = 0#8 ∧ t = raise (.addressOutOfRange (-1)) s) := by
  simp only [exec, execCall] at h
  by_cases ha : 7 < a.toNat
  · rw [regOperand_of_gt ha] at h
    exact .inr (.inl ⟨ha, by simpa [settle, bind, Except.bind] using h.symm⟩)
  obtain ⟨ra, rfl⟩ := exists_reg_of_le (Nat.le_of_not_lt ha)
  rw [regOperand_index] at h
  by_cases hs : s.reg .r7 = 0#8
  · rw [pushSlot_error.2 ⟨hs, rfl⟩] at h
    exact .inr (.inr ⟨by omega, hs, by simpa [settle, bind, Except.bind] using h.symm⟩)
  have hslot := pushSlot_ok.2 ⟨hs, rfl⟩
  rw [hslot] at h
  exact .inl ⟨ra, _, rfl, hslot,
    by simpa [settle, pushAt, returnAddress, bind, Except.bind, pure, Except.pure] using h.symm⟩

theorem execRet_cases {s t : State} (h : exec .ret s = .next t) :
    (s.reg .r7 ≠ 255#8 ∧ t = (s.setPc (s.memRead (s.reg .r7))).setReg .r7 (s.reg .r7 + 1#8)) ∨
    (s.reg .r7 = 255#8 ∧ t = raise (.addressOutOfRange 256) s) := by
  simp only [exec, execRet, State.sp_eq, State.setSp_eq] at h
  by_cases hs : s.reg .r7 = 255#8
  · rw [popPointer_error.2 ⟨hs, rfl⟩] at h
    exact .inr ⟨hs, by simpa [settle, bind, Except.bind] using h.symm⟩
  · rw [popPointer_ok.2 ⟨hs, rfl⟩] at h
    exact .inl ⟨hs, by simpa [settle, bind, Except.bind, pure, Except.pure] using h.symm⟩

end Sys2Proof.Machine
end

