-- ==== Sys2Proof/Laws/Memory.lean ====
section
/-! SUPPORT. The laws of the memory operations: what a read gives after a write, and that every operation keeps the
canonical form. -/

namespace Sys2Proof.Machine

theorem Memory.wf_nil : Memory.wf [] := ⟨List.Pairwise.nil, by simp⟩

theorem Memory.wf_cons {k : Nat} {w : Byte} {m : Memory} :
    Memory.wf ((k, w) :: m) ↔
      (∀ c ∈ m, k < c.1) ∧ (k < Config.memCells ∧ w ≠ Config.unlistedByte) ∧ Memory.wf m := by
  simp only [Memory.wf, List.pairwise_cons, List.forall_mem_cons]
  tauto

/-- An address below every listed one reads as an unlisted cell. -/
theorem Memory.read_of_lt {m : Memory} {a : Nat} (h : ∀ c ∈ m, a < c.1) : m.read a = Config.unlistedByte := by
  induction m with
  | nil => rfl
  | cons c m ih =>
    obtain ⟨k, w⟩ := c
    have hk := h (k, w) (by simp)
    simp only [Memory.read, if_neg (Nat.ne_of_gt hk)]
    exact ih fun c hc => h c (by simp [hc])

theorem Memory.read_put {m : Memory} {a : Nat} (h : ∀ c ∈ m, a < c.1) (v : Byte) (b : Nat) :
    (Memory.put a v m).read b = if b = a then v else m.read b := by
  by_cases hv : v = Config.unlistedByte <;> by_cases hb : b = a
  · subst hb; simp [Memory.put, hv, Memory.read_of_lt h]
  · simp [Memory.put, hv, hb]
  · simp [Memory.put, hv, hb, Memory.read]
  · simp [Memory.put, hv, hb, Memory.read, Ne.symm hb]

/-- Read after write, on a canonical memory. -/
theorem Memory.read_write {m : Memory} (hm : m.wf) (a : Nat) (v : Byte) (b : Nat) :
    (m.write a v).read b = if b = a then v else m.read b := by
  induction m with
  | nil => simpa [Memory.write] using Memory.read_put (m := []) (by simp) v b
  | cons c m ih =>
    obtain ⟨k, w⟩ := c
    obtain ⟨hlt, -, hm⟩ := Memory.wf_cons.1 hm
    simp only [Memory.write]
    split
    · rename_i hak
      exact Memory.read_put (by simpa [hak] using fun c hc => hak.trans (hlt c hc)) v b
    · split
      · rename_i hak
        subst hak
        rw [Memory.read_put (fun c hc => hlt c hc)]
        by_cases hb : b = a
        · simp [hb]
        · simp [hb, Memory.read, Ne.symm hb]
      · rename_i hne
        by_cases hkb : k = b
        · subst hkb; simp [Memory.read, Ne.symm hne]
        · simp [Memory.read, hkb, ih hm]

theorem Memory.mem_write {m : Memory} {a : Nat} {v : Byte} {c : Host.Cell} (h : c ∈ m.write a v) :
    c.1 = a ∨ c ∈ m := by
  induction m with
  | nil =>
    simp only [Memory.write, Memory.put] at h
    split at h <;> simp_all
  | cons d m ih =>
    simp only [Memory.write, Memory.put] at h
    split at h
    · split at h <;> simp at h ⊢ <;> grind
    · split at h
      · split at h <;> simp at h ⊢ <;> grind
      · simp at h ⊢; grind

theorem Memory.wf_put {m : Memory} {a : Nat} (hm : m.wf) (h : ∀ c ∈ m, a < c.1) (ha : a < Config.memCells) (v : Byte) :
    (Memory.put a v m).wf := by
  by_cases hv : v = Config.unlistedByte
  · simpa [Memory.put, hv] using hm
  · simp only [Memory.put, if_neg hv]
    exact Memory.wf_cons.2 ⟨h, ⟨ha, hv⟩, hm⟩

/-- A write keeps the canonical form. -/
theorem Memory.wf_write {m : Memory} (hm : m.wf) {a : Nat} (ha : a < Config.memCells) (v : Byte) :
    (m.write a v).wf := by
  induction m with
  | nil => exact Memory.wf_put hm (by simp) ha v
  | cons c m ih =>
    obtain ⟨k, w⟩ := c
    obtain ⟨hlt, hk, hm'⟩ := Memory.wf_cons.1 hm
    simp only [Memory.write]
    split
    · rename_i hak
      exact Memory.wf_put hm (by simpa [hak] using fun c hc => hak.trans (hlt c hc)) ha v
    · split
      · rename_i hak
        subst hak
        exact Memory.wf_put hm' hlt ha v
      · rename_i hnlt hne
        refine Memory.wf_cons.2 ⟨fun c hc => ?_, hk, ih hm'⟩
        obtain h | h := Memory.mem_write hc
        · omega
        · exact hlt c h

/-- Writing consecutive bytes keeps the canonical form while they fit. -/
theorem Memory.wf_writeFrom {m : Memory} (hm : m.wf) {a : Nat} {vs : List Byte}
    (ha : a + vs.length ≤ Config.memCells) : (m.writeFrom a vs).wf := by
  induction vs generalizing m a with
  | nil => exact hm
  | cons v vs ih =>
    simp only [List.length_cons] at ha
    exact ih (Memory.wf_write hm (by omega) v) (by omega)

/-- What a read gives after consecutive bytes have been written. -/
theorem Memory.read_writeFrom {m : Memory} (hm : m.wf) {a : Nat} {vs : List Byte}
    (ha : a + vs.length ≤ Config.memCells) (b : Nat) :
    (m.writeFrom a vs).read b = if a ≤ b then vs.getD (b - a) (m.read b) else m.read b := by
  induction vs generalizing m a with
  | nil => simp [Memory.writeFrom]
  | cons v vs ih =>
    simp only [List.length_cons] at ha
    simp only [Memory.writeFrom]
    rw [ih (Memory.wf_write hm (by omega) v) (by omega), Memory.read_write hm]
    by_cases hab : a = b
    · subst hab; simp
    · by_cases hle : a ≤ b
      · obtain ⟨d, rfl⟩ : ∃ d, b = a + 1 + d := ⟨b - (a + 1), by omega⟩
        have h1 : a + 1 + d - a = d + 1 := by omega
        simp [h1, show ¬ a + 1 + d = a by omega, show a ≤ a + 1 + d by omega]
      · simp [hle, show ¬ a + 1 ≤ b by omega, Ne.symm hab]

end Sys2Proof.Machine
end

