-- ==== Sys2Proof/Laws/PerInstr.lean ====
section
/-! SUPPORT. The family `WindowDecode`: the engine's decoder reads an instruction back from its opcode byte and from two
bytes that begin with its operands (30_encoding.md rules R72, R75, R78). -/

namespace Sys2Proof.Laws.WindowDecode

/-- Whatever bytes follow the operands, the three bytes at an instruction's address decode to it. -/
def Statement (i : Instr) : Prop :=
  ∀ a b, [a, b].take (operandBytes i).length = operandBytes i → decodeWindow (opcodeByte i) a b = some i

theorem ldi (a imm : Byte) : Statement (.ldi a imm) := by
  intro x y h; obtain ⟨rfl, rfl⟩ : x = a ∧ y = imm := by simpa [operandBytes] using h
  rfl

theorem prn (a : Byte) : Statement (.prn a) := by
  intro x y h; obtain rfl : x = a := by simpa [operandBytes] using h
  rfl

theorem hlt : Statement .hlt := fun _ _ _ => rfl

theorem mul (a b : Byte) : Statement (.mul a b) := by
  intro x y h; obtain ⟨rfl, rfl⟩ : x = a ∧ y = b := by simpa [operandBytes] using h
  rfl

theorem add (a b : Byte) : Statement (.add a b) := by
  intro x y h; obtain ⟨rfl, rfl⟩ : x = a ∧ y = b := by simpa [operandBytes] using h
  rfl

theorem push (a : Byte) : Statement (.push a) := by
  intro x y h; obtain rfl : x = a := by simpa [operandBytes] using h
  rfl

theorem pop (a : Byte) : Statement (.pop a) := by
  intro x y h; obtain rfl : x = a := by simpa [operandBytes] using h
  rfl

theorem call (a : Byte) : Statement (.call a) := by
  intro x y h; obtain rfl : x = a := by simpa [operandBytes] using h
  rfl

theorem ret : Statement .ret := fun _ _ _ => rfl

end Sys2Proof.Laws.WindowDecode
end

