-- ==== Sys2Proof/Laws/Step.lean ====
section
/-! SUPPORT. What a fetch and a step can do, said once. -/

namespace Sys2Proof.Machine

/-- From `pc = 254` on the look-ahead leaves memory; below, the three bytes are read. -/
theorem fetch_eq (s : State) : fetch s =
    if 253 < s.pc.toNat then .error (.addressOutOfRange 256)
    else .ok ⟨s.memRead s.pc, s.memRead (s.pc + 1#8), s.memRead (s.pc + 2#8)⟩ := by
  have hlt := s.pc.isLt
  by_cases h : 253 < s.pc.toNat
  · rw [if_pos h]
    by_cases h' : s.pc.toNat = 255
    · simp only [fetch, h', Nat.cast_ofNat, checkAddr_of_gt (show (255 : Int) < 255 + 1 by decide)]
      rfl
    · have h'' : s.pc.toNat = 254 := by omega
      have h1 : checkAddr ((254 : Nat) + 1 : Int) = .ok 255 := checkAddr_ok.2 (by decide)
      have h2 : checkAddr ((254 : Nat) + 2 : Int) = .error (.addressOutOfRange 256) :=
        checkAddr_error.2 ⟨by decide, by decide⟩
      simp only [fetch, h'', h1, h2]
      rfl
  · rw [if_neg h]
    have h1 : checkAddr ((s.pc.toNat : Int) + 1) = .ok (s.pc + 1#8) := checkAddr_ok.2 (by bv_omega)
    have h2 : checkAddr ((s.pc.toNat : Int) + 2) = .ok (s.pc + 2#8) := checkAddr_ok.2 (by bv_omega)
    simp only [fetch, h1, h2]
    rfl

theorem fetchDecode_of_gt {s : State} (h : 253 < s.pc.toNat) :
    fetchDecode s = .error (.addressOutOfRange 256) := by
  simp only [fetchDecode, fetch_eq, if_pos h]
  rfl

theorem fetchDecode_of_le {s : State} (h : s.pc.toNat ≤ 253) :
    fetchDecode s =
      match decodeWindow (s.memRead s.pc) (s.memRead (s.pc + 1#8)) (s.memRead (s.pc + 2#8)) with
      | some i => .ok i
      | none => .error (.unknownInstruction (s.memRead s.pc)) := by
  simp only [fetchDecode, fetch_eq, if_neg (show ¬ 253 < s.pc.toNat by omega)]
  rfl

@[simp] theorem stopReason_eq_none {s : State} : stopReason s = none ↔ s.run = .running := by
  unfold stopReason
  cases s.run <;> simp

/-- A step of a running engine, phase by phase. -/
theorem step_of_running {s : State} (h : s.run = .running) :
    step s = match fetchDecode s with
      | .error c => .next (raise c s)
      | .ok i => exec i s := by
  cases hf : fetchDecode s <;> simp only [step, stopReason_eq_none.2 h, hf]

/-- Everything a step that answers a next state can have been. -/
theorem step_cases {s t : State} (h : step s = .next t) :
    s.run = .running ∧
      ((253 < s.pc.toNat ∧ t = raise (.addressOutOfRange 256) s) ∨
        s.pc.toNat ≤ 253 ∧
          ((decodeWindow (s.memRead s.pc) (s.memRead (s.pc + 1#8)) (s.memRead (s.pc + 2#8)) = none ∧
              t = raise (.unknownInstruction (s.memRead s.pc)) s) ∨
            ∃ i, decodeWindow (s.memRead s.pc) (s.memRead (s.pc + 1#8)) (s.memRead (s.pc + 2#8)) = some i ∧
              exec i s = .next t)) := by
  have hrun : s.run = .running := by
    cases hr : s.run <;> simp [step, stopReason, hr] at h ⊢
  refine ⟨hrun, ?_⟩
  rw [step_of_running hrun] at h
  by_cases hpc : 253 < s.pc.toNat
  · rw [fetchDecode_of_gt hpc] at h
    exact .inl ⟨hpc, by simpa using h.symm⟩
  · have hle : s.pc.toNat ≤ 253 := by omega
    rw [fetchDecode_of_le hle] at h
    refine .inr ⟨hle, ?_⟩
    cases hd : decodeWindow (s.memRead s.pc) (s.memRead (s.pc + 1#8)) (s.memRead (s.pc + 2#8)) with
    | none => rw [hd] at h; exact .inl ⟨rfl, by simpa using h.symm⟩
    | some i => rw [hd] at h; exact .inr ⟨i, rfl, h⟩

end Sys2Proof.Machine
end

