-- ==== Sys2Proof/Tests/Slice0.lean ====
section
/-! SUPPORT. The model's own tests, from the spec's vectors (95_test_vectors.md, named V-… and L…) and from its encodings
(30_encoding.md rule R78), and for each statement that has hypotheses a concrete case that meets them all. -/

namespace Sys2Proof.Tests

open Sys2Proof Sys2Proof.Machine

/-! ## Helpers -/

/-- The reset state with bytes placed at an address and `pc` set to it, as part 2 of 95_test_vectors.md starts. -/
def start (at_ : Byte) (bytes : List Byte) : State :=
  { State.reset with pc := at_, mem := Memory.writeFrom [] at_.toNat bytes }

/-- The next state of an outcome, if it is one. -/
def nextOf : Host.Outcome State Fault Refusal → Option State
  | .next t => some t
  | .fault _ => none
  | .refused _ => none

/-- The state after one step; the state itself where the engine takes none. -/
def after (s : State) : State := (nextOf (step s)).getD s

/-- A successful loader result. -/
def loaded {α : Type} : Except LoadError α → Option α
  | .ok t => some t
  | .error _ => none

/-- The decoder's answer, if it is an instruction. -/
def decoded (bytes : List Byte) : Option (Instr × List Byte) :=
  match decode bytes with
  | .ok r => some r
  | .error _ => none

/-- The decoder's rejection, if it rejects. -/
def rejected (bytes : List Byte) : Option DecodeError :=
  match decode bytes with
  | .ok _ => none
  | .error e => some e

/-! ## WellFormed: each register check refuses an ill-formed term (30_encoding.md rule R76: legal values 0..7) -/

theorem test_wellFormed_ldi : Instr.wellFormed (.ldi 8#8 0#8) = false ∧ Instr.wellFormed (.ldi 7#8 255#8) = true := by decide
theorem test_wellFormed_prn : Instr.wellFormed (.prn 8#8) = false ∧ Instr.wellFormed (.prn 7#8) = true := by decide
theorem test_wellFormed_mul : Instr.wellFormed (.mul 8#8 0#8) = false ∧ Instr.wellFormed (.mul 0#8 255#8) = false := by decide
theorem test_wellFormed_add : Instr.wellFormed (.add 12#8 0#8) = false ∧ Instr.wellFormed (.add 0#8 9#8) = false := by decide
theorem test_wellFormed_push : Instr.wellFormed (.push 8#8) = false := by decide
theorem test_wellFormed_pop : Instr.wellFormed (.pop 200#8) = false := by decide
theorem test_wellFormed_call : Instr.wellFormed (.call 8#8) = false := by decide

/-! ## Decode: a word of every instruction, bit by bit from its row of rule R78 -/

theorem test_decode_ldi : decoded [0b10000010#8, 0b00000011#8, 0b11111111#8] = some (.ldi 3#8 255#8, []) := by decide
theorem test_decode_prn : decoded [0b01000111#8, 0b00000101#8, 0b00000001#8] = some (.prn 5#8, [1#8]) := by decide
theorem test_decode_hlt : decoded [0b00000001#8] = some (.hlt, []) := by decide
theorem test_decode_mul : decoded [0b10100010#8, 0b00000001#8, 0b00000111#8] = some (.mul 1#8 7#8, []) := by decide
theorem test_decode_add : decoded [0b10100000#8, 0b00000111#8, 0b00000001#8] = some (.add 7#8 1#8, []) := by decide
theorem test_decode_push : decoded [0b01000101#8, 0b00000011#8] = some (.push 3#8, []) := by decide
theorem test_decode_pop : decoded [0b01000110#8, 0b00000010#8] = some (.pop 2#8, []) := by decide
theorem test_decode_call : decoded [0b01010000#8, 0b00000110#8] = some (.call 6#8, []) := by decide
theorem test_decode_ret : decoded [0b00010001#8, 0b01000101#8] = some (.ret, [0x45#8]) := by decide

/-- V-ENG-10, V-ENG-3 and the untouched cell of rule R80; a stream that ends too early, and an empty one. -/
theorem test_decode_rejects :
    rejected [0xA1#8, 0#8, 1#8] = some (.unknownOpcode 0xA1#8) ∧ rejected [0xFF#8, 0#8, 0#8] = some (.unknownOpcode 0xFF#8) ∧
    rejected [0#8] = some (.unknownOpcode 0#8) ∧ rejected [0xA2#8, 1#8] = some (.truncated 0xA2#8) ∧
    rejected [] = some .noBytes := by decide

/-- No two rows of the opcode map overlap. -/
theorem test_opcodes_distinct : opcodeTable.Pairwise (fun r q => r.opcode ≠ q.opcode) := by decide

/-- The row of LDI as the opcode table numbers it: the second byte is bits 15..8, the third bits 23..16. -/
theorem test_table_word : decodeTableWord 24 0x090182 = some (.ldi 1#8 9#8) ∧ decodeTableWord 8 0x11 = some .ret := by decide

/-- A placed word is the very next instruction, from reset. -/
theorem test_withFetchWord :
    (after (State.reset.withFetchWord 24 0x090182)).reg .r1 = 9#8 ∧ (after (State.reset.withFetchWord 8 0x01)).run = .halted := by
  decide

/-! ## One step of each instruction, from the vectors of part 2 -/

/-- V-LDI-2. -/
theorem test_ldi_unsigned : (after (start 0 [0x82, 3, 0xFF])).reg .r3 = 255#8 ∧ (after (start 0 [0x82, 3, 0xFF])).pc = 3#8 := by decide
/-- V-ENG-7: the successor of an LDI at 253 is address 256. -/
theorem test_ldi_at_top :
    (after (start 253 [0x82, 1, 9])).fault = some ⟨.addressOutOfRange 256, 253#8⟩ ∧ (after (start 253 [0x82, 1, 9])).reg .r1 = 0#8 := by decide
/-- V-PRN-2. -/
theorem test_prn_stack_pointer : (after (start 0 [0x47, 7])).out = [244#8] ∧ (after (start 0 [0x47, 7])).pc = 2#8 := by decide
/-- V-PRN-4. -/
theorem test_prn_bad_register :
    (after (start 0 [0x47, 8])).fault = some ⟨.registerIndexOutOfRange 8#8, 0#8⟩ ∧ (after (start 0 [0x47, 8])).out = [] := by decide
/-- V-ENG-4. -/
theorem test_hlt_at_253 : (after (start 253 [1])).run = .halted ∧ (after (start 253 [1])).pc = 253#8 := by decide
/-- V-ENG-5. -/
theorem test_hlt_at_254 : (after (start 254 [1])).fault = some ⟨.addressOutOfRange 256, 254#8⟩ := by decide
/-- V-ALU-17: 2 * 244 = 488. -/
theorem test_mul_wraps : (after ((start 0 [0xA2, 1, 7]).setReg .r1 2)).reg .r1 = 232#8 := by decide
/-- V-ALU-15. -/
theorem test_add_stack_pointer : (after ((start 0 [0xA0, 7, 1]).setReg .r1 1)).reg .r7 = 245#8 := by decide
/-- V-ALU-13: the first of two bad registers is reported. -/
theorem test_add_first_bad_register : (after (start 0 [0xA0, 0x0C, 9])).fault = some ⟨.registerIndexOutOfRange 12#8, 0#8⟩ := by decide
/-- V-STK-5: the decremented value is pushed. -/
theorem test_push_stack_pointer : (after (start 0 [0x45, 7])).reg .r7 = 243#8 ∧ (after (start 0 [0x45, 7])).memRead 243 = 243#8 := by decide
/-- V-STK-4. -/
theorem test_push_at_zero : (after ((start 0 [0x45, 0]).setReg .r7 0)).fault = some ⟨.addressOutOfRange (-1), 0#8⟩ := by decide
/-- V-STK-6: the popped value plus one. -/
theorem test_pop_stack_pointer : (after (((start 0 [0x46, 7]).setReg .r7 243).memWrite 243 32)).reg .r7 = 33#8 := by decide
/-- V-STK-8. -/
theorem test_pop_at_top :
    (after (((start 0 [0x46, 0]).setReg .r7 255).memWrite 255 9)).fault = some ⟨.addressOutOfRange 256, 0#8⟩ := by decide
/-- V-CR-4: to the new stack pointer. -/
theorem test_call_stack_pointer : (after (start 0 [0x50, 7])).pc = 243#8 ∧ (after (start 0 [0x50, 7])).memRead 243 = 2#8 := by decide
/-- V-CR-7: the highest return address, 255. -/
theorem test_call_at_253 : (after ((start 253 [0x50, 2]).setReg .r2 0x20)).memRead 243 = 255#8 := by decide
/-- V-CR-2. -/
theorem test_ret : (after (((start 14 [0x11]).setReg .r7 243).memWrite 243 8)).pc = 8#8 ∧
    (after (((start 14 [0x11]).setReg .r7 243).memWrite 243 8)).reg .r7 = 244#8 := by decide
/-- V-CR-5. -/
theorem test_ret_at_top : (after (((start 0 [0x11]).setReg .r7 255).memWrite 255 9)).fault = some ⟨.addressOutOfRange 256, 0#8⟩ := by
  decide
/-- V-ENG-2. -/
theorem test_unknown_opcode : (after State.reset).fault = some ⟨.unknownInstruction 0#8, 0#8⟩ ∧ (after State.reset).run = .faulted := by
  decide

/-! ## The boundary: L1, L2 and the tokens of 30_encoding.md rules R87, R88 -/

theorem test_load_reads_tokens :
    loaded (parseImage [.significant "10000010".toList, .skipped, .significant "00001000".toList]) = some [0x82#8, 8#8] := by rfl
theorem test_load_bad_token : loaded (bootText [.significant "10000010".toList, .significant "0000000x".toList]) = none := by rfl

/-! ## Witnesses: for each statement with hypotheses, a case that meets them together -/

/-- An image of one LDI and a HLT. -/
def image : List Byte := [0x82, 1, 9, 1]

theorem test_witness_LoaderPlacesTheImage : image.length ≤ 256 ∧ 3 < image.length ∧ image.length ≤ 4 ∧ image.length ≤ 255 ∧
    (List.replicate 256 1#8).length ≤ 256 := ⟨by decide, by decide, by decide, by decide, List.length_replicate.le⟩
theorem test_witness_LongImageRefused : 256 < (List.replicate 257 1#8).length := by
  rw [List.length_replicate]; omega
/-- Eight base-2 digits, and with a 1 before them a token of value 256. -/
def zeros : List Char := ['0', '0', '0', '0', '0', '0', '0', '0']
def digits : List Char := ['1', '0', '0', '0', '0', '0', '1', '0']

theorem test_witness_ImageTokens_digits : digits.length = 8 ∧ ∀ c ∈ digits, c = '0' ∨ c = '1' := by simp [digits]
theorem test_witness_ImageTokens_other : ∃ c ∈ "0000000x".toList, c ≠ '0' ∧ c ≠ '1' := ⟨'x', by decide⟩
theorem test_witness_ImageTokens_wide : (∀ c ∈ ('1' :: zeros), c = '0' ∨ c = '1') ∧
    255 < Nat.ofDigits 2 (('1' :: zeros).reverse.map fun c => if c = '1' then 1 else 0) := ⟨by simp [zeros], by norm_num [Nat.ofDigits, zeros]⟩
theorem test_witness_ImageTokens_lines : ImageLine.significant "0000000x".toList ∈ [ImageLine.skipped, .significant "0000000x".toList] ∧
    parseToken "0000000x".toList = .error .nonBinaryToken := ⟨by decide, rfl⟩
theorem test_witness_MemoryWriteThenRead : (start 0 image).mem.wf := by decide
theorem test_witness_MemoriesWithEqualCells : (start 0 image).mem.wf ∧ ((start 0 [0x82, 1, 8, 1]).memWrite 2 9).mem.wf ∧
    ∀ a, (start 0 image).memRead a = ((start 0 [0x82, 1, 8, 1]).memWrite 2 9).memRead a := ⟨by decide, by decide, fun _ => rfl⟩
theorem test_witness_EncodeOfDecode : decode [0x82#8, 3#8, 0xFF#8, 1#8] = .ok (.ldi 3#8 255#8, [1#8]) := rfl
theorem test_witness_UnknownOpcodesFault : (start 253 [2]).run = .running ∧ (start 253 [2]).pc.toNat ≤ 253 ∧
    (start 253 [2]).memRead (start 253 [2]).pc ∉
      ([0x01#8, 0x11#8, 0x45#8, 0x46#8, 0x47#8, 0x50#8, 0x82#8, 0xA0#8, 0xA2#8] : List Byte) := by decide
theorem test_witness_UnusedLookahead : operandCount 0x47#8 = 1 ∧ operandCount 0x11#8 = 0 := by decide

/-- The hypotheses of the two statements about a step's instruction, at the last address an instruction starts at. -/
theorem test_witness_StepRuns_known : (start 253 [0x47, 1]).run = .running ∧ (start 253 [0x47, 1]).pc.toNat ≤ 253 ∧
    decode [(start 253 [0x47, 1]).memRead (start 253 [0x47, 1]).pc, (start 253 [0x47, 1]).memRead ((start 253 [0x47, 1]).pc + 1#8),
      (start 253 [0x47, 1]).memRead ((start 253 [0x47, 1]).pc + 2#8)] = .ok (.prn 1#8, [0#8]) := ⟨rfl, by decide, rfl⟩
theorem test_witness_StepRuns_unknown : State.reset.run = .running ∧ State.reset.pc.toNat ≤ 253 ∧
    decode [State.reset.memRead State.reset.pc, State.reset.memRead (State.reset.pc + 1#8),
      State.reset.memRead (State.reset.pc + 2#8)] = .error (.unknownOpcode (State.reset.memRead State.reset.pc)) :=
  ⟨rfl, by decide, rfl⟩
theorem test_witness_EncodedInstructionInMemory : (start 252 [0x82, 1, 9]).run = .running ∧ (start 252 [0x82, 1, 9]).pc.toNat ≤ 253 ∧
    ∀ (k : Nat) (h : k < (encode (.ldi 1#8 9#8)).length),
      (start 252 [0x82, 1, 9]).memRead ((start 252 [0x82, 1, 9]).pc + BitVec.ofNat 8 k) = (encode (.ldi 1#8 9#8))[k] := by
  refine ⟨rfl, by decide, ?_⟩
  intro k h
  have hk : k < 3 := h
  interval_cases k <;> rfl
theorem test_witness_StepIsTheSpecsFunction : State.reset.run = .running := rfl
theorem test_witness_LookaheadFaults : (start 254 [1]).run = .running ∧ 254 ≤ (start 254 [1]).pc.toNat ∧
    (start 253 [1]).run = .running ∧ (start 253 [1]).pc.toNat ≤ 253 ∧ (start 253 [1]).memRead (start 253 [1]).pc = 0x01#8 := by decide
theorem test_witness_stopped : (after (start 0 [1])).run = .halted ∧ (after State.reset).run = .faulted := by decide
/-- The three kinds of step of `RunStateTransitions`, and its HLT clause at 253. -/
theorem test_witness_RunStateTransitions : step (start 0 image) = .next (after (start 0 image)) ∧
    (after (start 0 image)).run = .running ∧ step (start 253 [1]) = .next (after (start 253 [1])) ∧
    step State.reset = .next (after State.reset) ∧ (after State.reset).run ≠ .running := ⟨rfl, rfl, rfl, rfl, by decide⟩
theorem test_witness_FaultEntryIsPrecise : step State.reset = .next (after State.reset) ∧ (after State.reset).run = .faulted := ⟨rfl, rfl⟩
/-- V-ALU-14: the second register byte is bad, with the largest `pc`. -/
theorem test_witness_FaultsOfTheTable_second : step (start 253 [0xA0, 0, 9]) = .next (after (start 253 [0xA0, 0, 9])) ∧
    (after (start 253 [0xA0, 0, 9])).fault = some ⟨.registerIndexOutOfRange 9#8, 253#8⟩ := ⟨rfl, rfl⟩
/-- A step for each other cause of `FaultsAreThoseOfTheTable` is among the tests above; this one takes none. -/
theorem test_witness_FaultsOfTheTable : step (start 252 [0x82, 1, 9]) = .next (after (start 252 [0x82, 1, 9])) ∧
    (after (start 252 [0x82, 1, 9])).run = .running := ⟨rfl, rfl⟩
theorem test_witness_IllegalRegisterBytes : Instr.wellFormed (.mul 7#8 8#8) = false ∧ Instr.wellFormed (.ldi 7#8 8#8) = true ∧
    exec (.ldi 7#8 8#8) State.reset = .next ((State.reset.setReg .r7 8).setPc 3) := ⟨rfl, rfl, rfl⟩
theorem test_witness_invariant : State.reset.Inv := ⟨by decide, by decide, by decide⟩
theorem test_witness_StepKeepsTheInvariant : State.reset.Inv ∧ step State.reset = .next (after State.reset) :=
  ⟨test_witness_invariant, rfl⟩
theorem test_witness_Reachable : Reachable (after (start 0 image)) := .stepped (.booted (image := image) rfl) rfl
/-- PUSH R7 of V-STK-5 changes the cell 243. -/
theorem test_witness_OnlyPushAndCallChangeMemory : (start 0 [0x45, 7]).mem.wf ∧
    step (start 0 [0x45, 7]) = .next (after (start 0 [0x45, 7])) ∧
    (after (start 0 [0x45, 7])).memRead 243 ≠ (start 0 [0x45, 7]).memRead 243 := ⟨by decide, rfl, by decide⟩
theorem test_witness_OnlyPrnEmits : step (start 0 [0x47, 7]) = .next (after (start 0 [0x47, 7])) ∧
    (after (start 0 [0x47, 7])).out ≠ (start 0 [0x47, 7]).out := ⟨rfl, by decide⟩
theorem test_witness_OutputIsWriteOnly : step (start 0 [0x47, 7]) = .next (after (start 0 [0x47, 7])) := rfl
theorem test_witness_RegisterWriters : step (start 0 [0x46, 0]) = .next (after (start 0 [0x46, 0])) ∧
    (after (start 0 [0x46, 0])).reg .r7 ≠ (start 0 [0x46, 0]).reg .r7 ∧
    step (start 0 image) = .next (after (start 0 image)) ∧ (after (start 0 image)).reg .r1 ≠ (start 0 image).reg .r1 :=
  ⟨rfl, by decide, rfl, by decide⟩
/-- ADD R0, R1 does not read register 2, and LDI R1 only writes register 1. -/
theorem test_witness_UnreadRegisters_unnamed : step (start 0 [0xA0, 0, 1]) = .next (after (start 0 [0xA0, 0, 1])) ∧
    (start 0 [0xA0, 0, 1]).memRead 0 ∉ ([0x45#8, 0x46#8, 0x50#8, 0x11#8] : List Byte) ∧
    (start 0 [0xA0, 0, 1]).memRead 1 ≠ Reg.r2.index ∧ (start 0 [0xA0, 0, 1]).memRead 2 ≠ Reg.r2.index := ⟨rfl, by decide⟩
theorem test_witness_UnreadRegisters_written : step (start 0 image) = .next (after (start 0 image)) ∧
    (start 0 image).memRead 0 ∈ ([0x82#8, 0x46#8] : List Byte) ∧ (start 0 image).memRead 0 ∉ ([0x45#8, 0x46#8, 0x50#8, 0x11#8] : List Byte) ∧
    (start 0 image).memRead 1 = Reg.r1.index ∧ (after (start 0 image)).run ≠ .faulted := ⟨rfl, by decide⟩
/-- A step of each kind of `ProgramCounterAfterEachInstruction`: a fault, and an executed LDI, POP, HLT, CALL and RET. -/
theorem test_witness_ProgramCounter_steps : step State.reset = .next (after State.reset) ∧ (after State.reset).run = .faulted ∧
    step (start 252 [0x82, 1, 9]) = .next (after (start 252 [0x82, 1, 9])) ∧ (after (start 252 [0x82, 1, 9])).run ≠ .faulted ∧
    step (start 253 [0x46, 0]) = .next (after (start 253 [0x46, 0])) ∧ (after (start 253 [0x46, 0])).run ≠ .faulted :=
  ⟨rfl, rfl, rfl, by decide, rfl, by decide⟩
set_option maxRecDepth 4000 in
theorem test_witness_ProgramCounter_jumps : step (start 253 [1]) = .next (after (start 253 [1])) ∧ (after (start 253 [1])).run ≠ .faulted ∧
    step (start 253 [0x50, 7]) = .next (after (start 253 [0x50, 7])) ∧ (after (start 253 [0x50, 7])).run ≠ .faulted ∧
    step (start 253 [0x11]) = .next (after (start 253 [0x11])) ∧ (after (start 253 [0x11])).run ≠ .faulted :=
  ⟨rfl, by decide, rfl, by decide, rfl, by decide⟩
theorem test_witness_SequentialAdvance : State.reset.run = .running ∧
    exec (.add 0#8 1#8) State.reset = .next (State.reset.setPc 3) ∧ (State.reset.setPc 3).run = .running ∧
    exec (.push 0#8) (start 253 []) = .next (((start 253 []).setReg .r7 243).setPc 255) := ⟨rfl, rfl, rfl, rfl⟩
/-- The boundaries of the clauses of LDI, MUL, ADD and of their faults: `pc` 252 and 253, register byte 8. -/
theorem test_witness_three_byte : (start 252 []).pc.toNat ≤ 252 ∧ (start 253 []).pc = 253#8 ∧ 8 ≤ (8#8 : Byte).toNat := by decide
/-- The boundaries of the clauses of PRN, PUSH, POP, CALL, RET: `pc` 253, stack pointer 0, 1, 254 and 255. -/
theorem test_witness_two_byte : (start 253 []).pc.toNat ≤ 253 ∧ ((start 253 []).setReg .r7 1).reg .r7 ≠ 0#8 ∧
    ((start 253 []).setReg .r7 0).reg .r7 = 0#8 ∧ ((start 253 []).setReg .r7 254).reg .r7 ≠ 255#8 ∧
    ((start 253 []).setReg .r7 255).reg .r7 = 255#8 := by decide
/-- POP R7: a top of stack of 254 and one of 255. -/
theorem test_witness_pop_stack_pointer : ((start 253 []).memWrite 244 254).memRead (((start 253 []).memWrite 244 254).reg .r7) ≠ 255#8 ∧
    ((start 253 []).memWrite 244 255).memRead (((start 253 []).memWrite 244 255).reg .r7) = 255#8 ∧ Reg.r6 ≠ Reg.r7 := by decide
theorem test_witness_RegisterDestinationFrame : exec (.ldi 1#8 9#8) State.reset = .next ((State.reset.setReg .r1 9).setPc 3) ∧
    exec (.mul 7#8 0#8) State.reset = .next ((State.reset.setReg .r7 0).setPc 3) := ⟨rfl, rfl⟩
theorem test_witness_OutputAndHaltFrame : exec (.prn 7#8) State.reset = .next ((State.reset.emit 244).setPc 2) ∧
    exec .hlt State.reset = .next State.reset.halt := ⟨rfl, rfl⟩
theorem test_witness_StoringFrame : State.reset.mem.wf ∧
    exec (.push 7#8) State.reset = .next (((State.reset.setReg .r7 243).memWrite 243 243).setPc 2) ∧ pushSlot State.reset = .ok 243#8 :=
  ⟨by decide, rfl, rfl⟩
theorem test_witness_StoringFrame_fault : pushSlot (State.reset.setReg .r7 0) = .error (.addressOutOfRange (-1)) ∧
    exec (.call 0#8) (State.reset.setReg .r7 0) = .next (raise (.addressOutOfRange (-1)) (State.reset.setReg .r7 0)) := ⟨rfl, rfl⟩
set_option maxRecDepth 4000 in
theorem test_witness_PoppingFrame : exec (.pop 1#8) State.reset = .next ((State.reset.setReg .r7 245).setPc 2) ∧
    exec .ret State.reset = .next (State.reset.setReg .r7 245) := ⟨rfl, rfl⟩
/-- PUSH R6; POP R6 at the highest `pc`, 251. -/
theorem test_witness_PushThenPop : (start 251 [0x45, 6, 0x46, 6]).mem.wf ∧ (start 251 [0x45, 6, 0x46, 6]).run = .running ∧
    Reg.r6 ≠ Reg.r7 ∧ (start 251 [0x45, 6, 0x46, 6]).reg .r7 ≠ 0#8 ∧ (start 251 [0x45, 6, 0x46, 6]).pc.toNat ≤ 251 ∧
    (start 251 [0x45, 6, 0x46, 6]).memRead 251 = 0x45#8 ∧ (start 251 [0x45, 6, 0x46, 6]).memRead 252 = Reg.r6.index ∧
    (start 251 [0x45, 6, 0x46, 6]).memRead 253 = 0x46#8 ∧ (start 251 [0x45, 6, 0x46, 6]).memRead 254 = Reg.r6.index ∧
    (start 251 [0x45, 6, 0x46, 6]).reg .r7 - 1#8 ≠ 253#8 ∧ (start 251 [0x45, 6, 0x46, 6]).reg .r7 - 1#8 ≠ 254#8 := by decide

/-- CALL R1 at 6 to the subroutine at 11 that doubles register 0, as program P3 has it. -/
def caller : State := { start 6 [0x50, 1, 0x47, 0, 1, 0xA0, 0, 0, 0x11] with regs := ⟨7, 11, 0, 0, 0, 0, 0, 244⟩ }

theorem test_witness_ReturnResumes : caller.mem.wf ∧ caller.memRead caller.pc = 0x50#8 ∧ step caller = .next (after caller) ∧
    (after caller).run = .running ∧ runFor 1 (after caller) = after (after caller) ∧ (after (after caller)).run = .running ∧
    (after (after caller)).pc.toNat ≤ 253 ∧ (after (after caller)).memRead (after (after caller)).pc = 0x11#8 ∧
    (after (after caller)).reg .r7 = (after caller).reg .r7 ∧
    (after (after caller)).memRead ((after (after caller)).reg .r7) = (after caller).memRead ((after caller).reg .r7) :=
  ⟨by decide, rfl, rfl, rfl, rfl, rfl, by decide, rfl, rfl, rfl⟩
theorem test_witness_LastPushedIsFirstPopped : ((start 247 []).setReg .r7 2).mem.wf ∧ Reg.r0 ≠ Reg.r7 ∧ Reg.r1 ≠ Reg.r7 ∧
    Reg.r2 ≠ Reg.r7 ∧ Reg.r3 ≠ Reg.r7 ∧ Reg.r2 ≠ Reg.r3 ∧ 2 ≤ (((start 247 []).setReg .r7 2).reg .r7).toNat ∧
    ((start 247 []).setReg .r7 2).pc.toNat ≤ 247 := by decide
set_option maxRecDepth 4000 in
/-- CALL R7 goes to the byte it has just stored (V-CR-4): the opcode clause. -/
theorem test_witness_StoresReachTheNextFetch_opcode :
    exec (.call Reg.r7.index) State.reset = .next (((State.reset.setReg .r7 243).memWrite 243 2).setPc 243) ∧
    fetch (((State.reset.setReg .r7 243).memWrite 243 2).setPc 243) = .ok ⟨2, 0, 0⟩ ∧ State.reset.mem.wf := ⟨rfl, rfl, by decide⟩
/-- PUSH R0 with the stack pointer at 4 and at 5: the two look-ahead clauses. -/
def pushNear (sp : Byte) : State := ((start 0 [0x45, 0]).setReg .r7 sp).setReg .r0 6

set_option maxRecDepth 4000 in
theorem test_witness_StoresReachTheNextFetch_first :
    exec (.push Reg.r0.index) (pushNear 4) = .next (after (pushNear 4)) ∧ fetch (after (pushNear 4)) = .ok ⟨0, 6, 0⟩ ∧
    (after (pushNear 4)).pc + 1#8 = (pushNear 4).reg .r7 - 1#8 ∧ (pushNear 4).mem.wf := ⟨rfl, rfl, rfl, by decide⟩
set_option maxRecDepth 4000 in
theorem test_witness_StoresReachTheNextFetch_second :
    exec (.push Reg.r0.index) (pushNear 5) = .next (after (pushNear 5)) ∧ fetch (after (pushNear 5)) = .ok ⟨0, 0, 6⟩ ∧
    (after (pushNear 5)).pc + 2#8 = (pushNear 5).reg .r7 - 1#8 ∧ (pushNear 5).mem.wf := ⟨rfl, rfl, rfl, by decide⟩

end Sys2Proof.Tests
end

section
/-! PROOF. The transitions of the run state (10_state.md rule R30): what each handler does to `run` and to the fault record,
said once for all nine instructions, and from it what a step does. -/

namespace Sys2Proof.Machine

@[simp] theorem alu_run (op : AluOp) (ra rb : Reg) (s : State) : (alu op ra rb s).run = s.run := rfl
@[simp] theorem alu_fault (op : AluOp) (ra rb : Reg) (s : State) : (alu op ra rb s).fault = s.fault := rfl

/-- A handler halts, and then it is HLT's; or takes a fault; or leaves the run state and the fault record alone. -/
theorem exec_run_cases {i : Instr} {s t : State} (h : exec i s = .next t) :
    (i = .hlt ∧ t = s.halt) ∨ (∃ c, t = raise c s) ∨ (t.run = s.run ∧ t.fault = s.fault) := by
  cases i with
  | hlt => exact .inl ⟨rfl, execHlt_cases h⟩
  | ldi a imm =>
    obtain ⟨ra, -, -, rfl⟩ | ⟨-, rfl⟩ | ⟨-, -, rfl⟩ := execLdi_cases h
    · simp
    all_goals exact .inr (.inl ⟨_, rfl⟩)
  | prn a =>
    obtain ⟨ra, -, -, rfl⟩ | ⟨-, rfl⟩ | ⟨-, -, rfl⟩ := execPrn_cases h
    · simp
    all_goals exact .inr (.inl ⟨_, rfl⟩)
  | mul a b =>
    obtain ⟨ra, rb, -, -, -, rfl⟩ | ⟨-, rfl⟩ | ⟨-, -, rfl⟩ | ⟨-, -, -, rfl⟩ := execMul_cases h
    · simp
    all_goals exact .inr (.inl ⟨_, rfl⟩)
  | add a b =>
    obtain ⟨ra, rb, -, -, -, rfl⟩ | ⟨-, rfl⟩ | ⟨-, -, rfl⟩ | ⟨-, -, -, rfl⟩ := execAdd_cases h
    · simp
    all_goals exact .inr (.inl ⟨_, rfl⟩)
  | push a =>
    obtain ⟨ra, slot, -, -, -, rfl⟩ | ⟨-, rfl⟩ | ⟨-, -, rfl⟩ | ⟨-, -, -, rfl⟩ := execPush_cases h
    · simp
    all_goals exact .inr (.inl ⟨_, rfl⟩)
  | pop a =>
    obtain ⟨ra, sp', -, -, -, rfl⟩ | ⟨-, rfl⟩ | ⟨ra, -, -, rfl⟩ | ⟨-, -, rfl⟩ := execPop_cases h
    · simp
    all_goals exact .inr (.inl ⟨_, rfl⟩)
  | call a =>
    obtain ⟨ra, slot, -, -, rfl⟩ | ⟨-, rfl⟩ | ⟨-, -, rfl⟩ := execCall_cases h
    · simp
    all_goals exact .inr (.inl ⟨_, rfl⟩)
  | ret =>
    obtain ⟨-, rfl⟩ | ⟨-, rfl⟩ := execRet_cases h
    · simp
    · exact .inr (.inl ⟨_, rfl⟩)

/-- Where the three bytes fetched spell an instruction, a step of a running engine is its handler. -/
theorem step_of_decodeWindow {s : State} {i : Instr} (hrun : s.run = .running) (hpc : s.pc.toNat ≤ 253)
    (hd : decodeWindow (s.memRead s.pc) (s.memRead (s.pc + 1#8)) (s.memRead (s.pc + 2#8)) = some i) :
    step s = exec i s := by
  rw [step_of_running hrun, fetchDecode_of_le hpc, hd]

/-- A HLT byte at a `pc` of at most 253 halts the engine and does nothing else (42_halt.md rule R115). -/
theorem step_of_hltByte {s : State} (hrun : s.run = .running) (hpc : s.pc.toNat ≤ 253)
    (hb : s.memRead s.pc = 0x01#8) : step s = .next s.halt :=
  step_of_decodeWindow (i := .hlt) hrun hpc (by rw [hb]; exact Laws.WindowDecode.hlt _ _ rfl)

/-- A step stays running with the fault record kept, or halts by a HLT byte, or takes a fault. -/
theorem step_run_cases {s t : State} (h : step s = .next t) :
    s.run = .running ∧
      ((t.run = .running ∧ t.fault = s.fault) ∨
        (s.pc.toNat ≤ 253 ∧ s.memRead s.pc = 0x01#8 ∧ t = s.halt) ∨ ∃ c, t = raise c s) := by
  obtain ⟨hrun, ⟨-, rfl⟩ | ⟨hpc, ⟨-, rfl⟩ | ⟨i, hd, he⟩⟩⟩ := step_cases h
  · exact ⟨hrun, .inr (.inr ⟨_, rfl⟩)⟩
  · exact ⟨hrun, .inr (.inr ⟨_, rfl⟩)⟩
  · refine ⟨hrun, ?_⟩
    obtain ⟨rfl, ht⟩ | hfault | ⟨hr, hf⟩ := exec_run_cases he
    · have hb : opcodeByte .hlt = s.memRead s.pc := (decodeWindow_some hd).1
      exact .inr (.inl ⟨hpc, hb.symm, ht⟩)
    · exact .inr (.inr hfault)
    · exact .inl ⟨hr.trans hrun, hf⟩

/-- Settles O21: the reset value, the three kinds of step, the HLT byte, and no step from a stopped engine. -/
theorem runStateTransitions : Obligations.RunStateTransitions := by
  refine ⟨rfl, fun s t h => ?_, fun s hrun hpc hb => ⟨s.halt, step_of_hltByte hrun hpc hb, rfl⟩,
    fun s t hrun h => hrun (step_run_cases h).1⟩
  obtain ⟨hrun, hstay | ⟨hpc, hb, rfl⟩ | ⟨c, rfl⟩⟩ := step_run_cases h
  · exact ⟨hrun, .inl hstay⟩
  · exact ⟨hrun, .inr (.inl ⟨rfl, hpc, hb, rfl⟩)⟩
  · exact ⟨hrun, .inr (.inr ⟨rfl, c, rfl⟩)⟩

end Sys2Proof.Machine
end

section
/-! PROOF. The opcode map (30_encoding.md rules R78, R80): its nine rows with their operand counts, that no other opcode
byte spells an instruction, and what a step does at one that spells none. -/

namespace Sys2Proof.Machine

/-- A row of the opcode map, read at the two bytes after the opcode: the instruction and its operand count. -/
theorem opcodeMap_row {i : Instr} {a b : Byte} (hrow : Laws.WindowDecode.Statement i)
    (hops : [a, b].take (operandBytes i).length = operandBytes i) :
    decodeWindow (opcodeByte i) a b = some i ∧ operandCount (opcodeByte i) = (operandBytes i).length :=
  ⟨hrow a b hops, operandCount_opcodeByte i⟩

open Laws.WindowDecode in
/-- Settles O10: each of the nine rows is the window law of its instruction. -/
theorem opcodeMapIsTheTable : Obligations.OpcodeMapIsTheTable := fun a b =>
  ⟨opcodeMap_row hlt rfl, opcodeMap_row ret rfl, opcodeMap_row (push a) rfl, opcodeMap_row (pop a) rfl,
    opcodeMap_row (prn a) rfl, opcodeMap_row (call a) rfl, opcodeMap_row (ldi a b) rfl,
    opcodeMap_row (add a b) rfl, opcodeMap_row (mul a b) rfl⟩

/-- The nine opcode bytes in the numerical order of 30_encoding.md rule R78. -/
def knownOpcodes : List Byte := [0x01#8, 0x11#8, 0x45#8, 0x46#8, 0x47#8, 0x50#8, 0x82#8, 0xA0#8, 0xA2#8]

/-- The model's table lists the same bytes in the source's order. -/
theorem opcodeTable_perm_knownOpcodes : (opcodeTable.map OpRow.opcode).Perm knownOpcodes := by decide

/-- The lookup fails exactly at the bytes of no row. -/
theorem decodeWindow_eq_none_iff (ir a b : Byte) : decodeWindow ir a b = none ↔ ir ∉ knownOpcodes := by
  rw [← opcodeTable_perm_knownOpcodes.mem_iff]
  simp [decodeWindow]

/-- A number below 256, taken as an opcode byte, is known exactly if it is one of the nine bytes' values. -/
theorem ofNat_mem_knownOpcodes_iff {n : Nat} (hn : n < 256) :
    BitVec.ofNat 8 n ∈ knownOpcodes ↔ n ∈ (knownOpcodes.map BitVec.toNat).toFinset := by
  rw [List.mem_toFinset, List.mem_map]
  constructor
  · exact fun h => ⟨_, h, (BitVec.toNat_ofNat n 8).trans (Nat.mod_eq_of_lt hn)⟩
  · rintro ⟨ir, h, rfl⟩
    rwa [BitVec.ofNat_toNat, BitVec.setWidth_eq]

/-- The opcode bytes that spell no instruction, as numbers. -/
def unknownOpcodes : List Nat :=
  (List.range 256).filter fun n => (decodeWindow (BitVec.ofNat 8 n) 0#8 0#8).isNone

theorem toFinset_unknownOpcodes :
    unknownOpcodes.toFinset = Finset.range 256 \ (knownOpcodes.map BitVec.toNat).toFinset := by
  ext n
  rw [unknownOpcodes, List.toFinset_filter, List.toFinset_range, Finset.mem_filter, Finset.mem_sdiff,
    Option.isNone_iff_eq_none, decodeWindow_eq_none_iff]
  exact and_congr_right fun hn => not_congr (ofNat_mem_knownOpcodes_iff (Finset.mem_range.1 hn))

/-- All 256 opcode bytes but the nine are unknown. -/
theorem length_unknownOpcodes : unknownOpcodes.length = 247 := by
  have hnodup : unknownOpcodes.Nodup := List.nodup_range.filter _
  have hbytes : (knownOpcodes.map BitVec.toNat).toFinset ⊆ Finset.range 256 := by decide
  calc unknownOpcodes.length
      = (Finset.range 256 \ (knownOpcodes.map BitVec.toNat).toFinset).card := by
        rw [← List.toFinset_card_of_nodup hnodup, toFinset_unknownOpcodes]
    _ = 256 - (knownOpcodes.map BitVec.toNat).toFinset.card := by
        rw [Finset.card_sdiff_of_subset hbytes, Finset.card_range]
    _ = 247 := rfl

/-- Where the opcode byte fetched is unknown, a step of a running engine is the fault entry and nothing else. -/
theorem step_of_unknownOpcode {s : State} (hrun : s.run = .running) (hpc : s.pc.toNat ≤ 253)
    (hb : s.memRead s.pc ∉ knownOpcodes) :
    step s = .next (raise (.unknownInstruction (s.memRead s.pc)) s) := by
  rw [step_of_running hrun, fetchDecode_of_le hpc, (decodeWindow_eq_none_iff _ _ _).2 hb]

/-- Settles O11: the count of the unknown opcode bytes, which they are, and the fault each takes. -/
theorem unknownOpcodesFault : Obligations.UnknownOpcodesFault :=
  ⟨length_unknownOpcodes, decodeWindow_eq_none_iff, fun _ => step_of_unknownOpcode⟩

end Sys2Proof.Machine
end

section
/-! PROOF. The engine cycle (40_engine_cycle.md sections 2 to 6): the look-ahead fault, the dispatch on the bytes fetched,
that a step is total, and the ALU. -/

namespace Sys2Proof

/-- A byte stream decodes exactly when its first three bytes, missing ones read as 0, spell an instruction and the stream
holds all its operands. -/
theorem decode_cons_eq_ok_iff {ir : Byte} {bytes tail : List Byte} {i : Instr} :
    decode (ir :: bytes) = .ok (i, tail) ↔
      decodeWindow ir (bytes.getD 0 0) (bytes.getD 1 0) = some i ∧
        operandCount ir ≤ bytes.length ∧ bytes.drop (operandCount ir) = tail := by
  rw [decode]
  cases decodeWindow ir (bytes.getD 0 0) (bytes.getD 1 0) with
  | none => simp
  | some j =>
    by_cases hlen : bytes.length < operandCount ir
    · simp [hlen]
    · simp [hlen, Nat.le_of_not_lt hlen]

/-- A byte stream is rejected for its opcode exactly when the lookup has no row for it. -/
theorem decode_cons_eq_unknownOpcode_iff {ir : Byte} {bytes : List Byte} :
    decode (ir :: bytes) = .error (.unknownOpcode ir) ↔
      decodeWindow ir (bytes.getD 0 0) (bytes.getD 1 0) = none := by
  rw [decode]
  cases decodeWindow ir (bytes.getD 0 0) (bytes.getD 1 0) with
  | none => simp
  | some j => by_cases hlen : bytes.length < operandCount ir <;> simp [hlen]

end Sys2Proof

namespace Sys2Proof.Machine

/-- From `pc = 254` on, the look-ahead fault is the whole step of a running engine (40_engine_cycle.md rule R93). -/
theorem step_of_lookaheadFault {s : State} (hrun : s.run = .running) (hpc : 254 ≤ s.pc.toNat) :
    step s = .next (raise (.addressOutOfRange 256) s) := by
  rw [step_of_running hrun, fetchDecode_of_gt hpc]

/-- Up to `pc = 253`, the lookup of the three bytes fetched decides the step: the handler found, or the fault of an
unknown opcode (40_engine_cycle.md rule R94). -/
theorem step_eq_dispatch {s : State} (hrun : s.run = .running) (hpc : s.pc.toNat ≤ 253) :
    step s = (decodeWindow (s.memRead s.pc) (s.memRead (s.pc + 1#8)) (s.memRead (s.pc + 2#8))).elim
      (.next (raise (.unknownInstruction (s.memRead s.pc)) s)) (exec · s) := by
  rw [step_of_running hrun, fetchDecode_of_le hpc]
  cases decodeWindow (s.memRead s.pc) (s.memRead (s.pc + 1#8)) (s.memRead (s.pc + 2#8)) <;> rfl

/-- Every handler answers a next state: HLT outright, the others by the end they share. -/
theorem exec_next (i : Instr) (s : State) : ∃ t, exec i s = .next t := by
  cases i with
  | hlt => exact ⟨_, rfl⟩
  | ldi | prn | mul | add | push | pop | call => exact settle_next s _
  | ret =>
    rw [exec, execRet]
    exact settle_next s _

/-- A running engine always answers a next state. -/
theorem step_next {s : State} (hrun : s.run = .running) : ∃ t, step s = .next t := by
  rw [step_of_running hrun]
  cases fetchDecode s with
  | error c => exact ⟨_, rfl⟩
  | ok i => exact exec_next i s

/-- The elimination of a lookup that is a case distinction: it acts in each branch. -/
theorem elim_ite {p : Prop} [Decidable p] {α β : Type} (o u : Option α) (d : β) (f : α → β) :
    (if p then o else u).elim d f = if p then o.elim d f else u.elim d f :=
  apply_ite (Option.elim · d f) p o u

/-- Settles O17: the look-ahead fault, then the nine-way case of the lookup; totality; what a raise sets. -/
theorem stepIsTheSpecsFunction : Obligations.StepIsTheSpecsFunction := by
  refine fun s hrun => ⟨?_, step_next hrun, fun _ => ⟨rfl, rfl, rfl, rfl, rfl, rfl⟩⟩
  split
  · exact step_of_lookaheadFault hrun (by omega)
  · rw [step_eq_dispatch hrun (by omega), decodeWindow_eq]
    simp only [elim_ite, Option.elim_some, Option.elim_none]

/-- Settles O18: the fault from 254 on, and a HLT that still runs at 253. -/
theorem lookaheadFaultsAtTheTop : Obligations.LookaheadFaultsAtTheTop :=
  ⟨fun _ => step_of_lookaheadFault, fun _ => step_of_hltByte⟩

/-- Settles O15: decoding the three bytes fetched is the lookup that decides the step. -/
theorem stepRunsTheDecodedInstruction : Obligations.StepRunsTheDecodedInstruction := by
  refine fun s hrun hpc => ⟨fun i _ h => ?_, fun h => ?_⟩
  · exact step_of_decodeWindow hrun hpc (decode_cons_eq_ok_iff.1 h).1
  · have hnone : decodeWindow (s.memRead s.pc) (s.memRead (s.pc + 1#8)) (s.memRead (s.pc + 2#8)) = none :=
      decode_cons_eq_unknownOpcode_iff.1 h
    rw [step_eq_dispatch hrun hpc, hnone, Option.elim_none]

@[simp] theorem toNat_narrow (v : Nat) : (narrow v).toNat = v % 256 := BitVec.toNat_ofNat v 8

/-- The register the ALU writes holds the narrowed result of the values both registers held before. -/
theorem alu_reg_same (op : AluOp) (ra rb : Reg) (s : State) :
    (alu op ra rb s).reg ra = narrow (op.exact (s.reg ra) (s.reg rb)) := State.reg_setReg_same s ra _

/-- The ALU is a write of its first register and nothing else. -/
theorem alu_eq_setReg (op : AluOp) (ra rb : Reg) (s : State) :
    alu op ra rb s = s.setReg ra ((alu op ra rb s).reg ra) := by
  rw [alu_reg_same, alu]

/-- The handler MUL and ADD share, where both operands name registers and the successor is in range. -/
theorem settle_alu_index {op : AluOp} {i : Instr} {ra rb : Reg} {s : State}
    (hn : operandCount (opcodeByte i) = 2) (hpc : s.pc.toNat ≤ 252) :
    settle s (do
      let r ← regOperand ra.index
      let q ← regOperand rb.index
      let next ← successor i s
      pure ((alu op r q s).setPc next)) = .next ((alu op ra rb s).setPc (s.pc + 3#8)) := by
  rw [regOperand_index, regOperand_index, successor_three hn, if_pos hpc]
  rfl

/-- MUL runs the multiply operation and advances by its three bytes. -/
theorem execMul_index {ra rb : Reg} {s : State} (hpc : s.pc.toNat ≤ 252) :
    exec (.mul ra.index rb.index) s = .next ((alu .multiply ra rb s).setPc (s.pc + 3#8)) :=
  settle_alu_index (operandCount_opcodeByte (.mul ra.index rb.index)) hpc

/-- ADD runs the add operation and advances by its three bytes. -/
theorem execAdd_index {ra rb : Reg} {s : State} (hpc : s.pc.toNat ≤ 252) :
    exec (.add ra.index rb.index) s = .next ((alu .add ra rb s).setPc (s.pc + 3#8)) :=
  settle_alu_index (operandCount_opcodeByte (.add ra.index rb.index)) hpc

/-- Settles O42: the two operations, the one register written, the result modulo 256, and the two handlers. -/
theorem aluContract : Obligations.AluContract := by
  refine ⟨fun op => ?_, fun op r q s => ⟨alu_eq_setReg op r q s, ?_, ?_⟩,
    fun r q s hpc => ⟨execMul_index hpc, execAdd_index hpc⟩⟩
  · cases op with
    | multiply => exact .inl rfl
    | add => exact .inr rfl
  · rintro rfl
    rw [alu_reg_same, toNat_narrow, AluOp.exact]
  · rintro rfl
    rw [alu_reg_same, toNat_narrow, AluOp.exact]

end Sys2Proof.Machine
end

section
/-! PROOF. Load immediate and output (41_load_immediate_and_output.md): LDI and PRN, each with its effect and its faults. -/

namespace Sys2Proof.Machine

/-- A handler that begins with a register operand faults on a byte above 7, whatever would follow (30_encoding.md rule
R76). -/
theorem settle_regOperand_of_gt {a : Byte} (ha : 7 < a.toNat) (s : State) (rest : Reg → Except FaultCause State) :
    settle s (regOperand a >>= rest) = .next (raise (.registerIndexOutOfRange a) s) := by
  rw [regOperand_of_gt ha]
  rfl

/-- A handler that begins with a register operand goes on with the register that the byte names. -/
theorem settle_regOperand_index (r : Reg) (s : State) (rest : Reg → Except FaultCause State) :
    settle s (regOperand r.index >>= rest) = settle s (rest r) := by
  rw [regOperand_index]
  rfl

/-- LDI of a register is the write of it, and then the advance by three bytes, if that stays in memory. -/
theorem execLdi_index (r : Reg) (imm : Byte) (s : State) : exec (.ldi r.index imm) s =
    if s.pc.toNat ≤ 252 then .next ((s.setReg r imm).setPc (s.pc + 3#8))
    else .next (raise (.addressOutOfRange (s.pc.toNat + 3)) s) := by
  rw [exec, execLdi, settle_regOperand_index,
    successor_three (operandCount_opcodeByte (.ldi r.index imm))]
  split <;> rfl

/-- PRN of a register is the output of its value, and then the advance by two bytes, if that stays in memory. -/
theorem execPrn_index (r : Reg) (s : State) : exec (.prn r.index) s =
    if s.pc.toNat ≤ 253 then .next ((s.emit (s.reg r)).setPc (s.pc + 2#8))
    else .next (raise (.addressOutOfRange (s.pc.toNat + 2)) s) := by
  rw [exec, execPrn, settle_regOperand_index, successor_two (operandCount_opcodeByte (.prn r.index))]
  split <;> rfl

/-- An emitted value is rendered after those before it, as an unsigned decimal (41_load_immediate_and_output.md rule
R111). -/
theorem State.emit_rendered (s : State) (v : Byte) : (s.emit v).rendered = s.rendered ++ [Nat.repr v.toNat] := by
  rw [State.rendered, State.emit_out, List.map_append]
  rfl

/-- Settles O36: the effect, the fault of the register byte, the fault of the successor at 253, and the encoding. -/
theorem ldiLoadsTheImmediate : Obligations.LdiLoadsTheImmediate := by
  refine fun r a imm s => ⟨fun hpc => ?_, fun ha => settle_regOperand_of_gt ha s _, fun hpc => ?_, rfl⟩
  · rw [execLdi_index, if_pos hpc]
  · rw [execLdi_index, hpc]
    rfl

/-- Settles O37: the effect, what is appended and how it is rendered, the fault of the register byte, and the encoding. -/
theorem prnEmitsTheRegister : Obligations.PrnEmitsTheRegister := by
  refine fun r a s => ⟨fun hpc => ?_, s.emit_out _, s.emit_rendered _,
    fun ha => settle_regOperand_of_gt ha s _, rfl⟩
  rw [execPrn_index, if_pos hpc]

end Sys2Proof.Machine
end

section
/-! PROOF. HLT (42_halt.md): the handler's whole answer, and that the engine takes no step from it. -/

namespace Sys2Proof.Machine

/-- HLT answers the halted state from every state, with no condition (42_halt.md rule R115). -/
theorem exec_hlt (s : State) : exec .hlt s = .next s.halt := rfl

/-- A halted engine takes no step: every step starts from a running one. -/
theorem step_halt_ne_next (s u : State) : step s.halt ≠ .next u := by
  intro h
  have hrun : s.halt.run = .running := (step_run_cases h).1
  rw [State.halt_run] at hrun
  cases hrun

/-- Settles O38: the encoding, the fields of the halted state, and no step from it. -/
theorem hltHalts : Obligations.HltHalts :=
  ⟨rfl, fun s => ⟨s.halt, exec_hlt s, s.halt_run, s.halt_pc, s.halt_regs, s.halt_mem, s.halt_out, s.halt_fault,
    step_halt_ne_next s⟩⟩

end Sys2Proof.Machine
end

section
/-! PROOF. The arithmetic instructions (43_alu.md): MUL and ADD, each with its effect and its faults. The two handlers differ
in the ALU operation alone, so the lemmas say for any operation, or any three-byte instruction, what both do. -/

namespace Sys2Proof.Machine

/-- The register the ALU writes holds the exact result modulo 256 (43_alu.md rule R122, D1). -/
theorem toNat_alu_reg_same (op : AluOp) (r q : Reg) (s : State) :
    ((alu op r q s).reg r).toNat = op.exact (s.reg r) (s.reg q) % 256 := by
  rw [alu_reg_same, toNat_narrow]

/-- An ALU operation and the advance after it change the destination register and `pc`, and nothing else. -/
theorem alu_setPc_eq (op : AluOp) (r q : Reg) (s : State) (next : Byte) :
    (alu op r q s).setPc next = (s.setReg r (((alu op r q s).setPc next).reg r)).setPc next := by
  rw [State.setPc_reg, ← alu_eq_setReg]

/-- A handler with two register operands, the first legal, faults on a second byte above 7 (30_encoding.md rule R76). -/
theorem settle_secondOperand_of_gt {b : Byte} (hb : 7 < b.toNat) (r : Reg) (s : State)
    (rest : Reg → Reg → Except FaultCause State) :
    settle s (regOperand r.index >>= fun r' => regOperand b >>= rest r') =
      .next (raise (.registerIndexOutOfRange b) s) := by
  rw [settle_regOperand_index, settle_regOperand_of_gt hb]

/-- A three-byte handler with two legal register operands faults at `pc = 253`, where the successor would be 256
(40_engine_cycle.md rule R96, D5). -/
theorem settle_twoOperands_of_pc_eq {i : Instr} {s : State} (hn : operandCount (opcodeByte i) = 2)
    (hpc : s.pc = 253#8) (r q : Reg) (rest : Reg → Reg → Byte → Except FaultCause State) :
    settle s (regOperand r.index >>= fun r' => regOperand q.index >>= fun q' => successor i s >>= rest r' q') =
      .next (raise (.addressOutOfRange 256) s) := by
  rw [settle_regOperand_index, settle_regOperand_index, successor_three hn, hpc]
  rfl

/-- Settles O39: the product modulo 256 with its frame, the faults in their order, and the encoding. -/
theorem mulMultiplies : Obligations.MulMultiplies := fun r q _ _ s =>
  ⟨fun hpc => ⟨_, execMul_index hpc, alu_setPc_eq .multiply r q s _, toNat_alu_reg_same .multiply r q s⟩,
    fun ha => settle_regOperand_of_gt ha s _,
    fun hb => settle_secondOperand_of_gt hb r s _,
    fun hpc => settle_twoOperands_of_pc_eq (operandCount_opcodeByte (.mul r.index q.index)) hpc r q _,
    rfl⟩

/-- Settles O40: the sum modulo 256 with its frame, the faults in their order, and the encoding. -/
theorem addAdds : Obligations.AddAdds := fun r q _ _ s =>
  ⟨fun hpc => ⟨_, execAdd_index hpc, alu_setPc_eq .add r q s _, toNat_alu_reg_same .add r q s⟩,
    fun ha => settle_regOperand_of_gt ha s _,
    fun hb => settle_secondOperand_of_gt hb r s _,
    fun hpc => settle_twoOperands_of_pc_eq (operandCount_opcodeByte (.add r.index q.index)) hpc r q _,
    rfl⟩

end Sys2Proof.Machine
end

section
/-! PROOF. Call and return (45_call_return.md): RET, its effect and its fault. The check of the popped stack pointer is the
only condition of its handler. -/

namespace Sys2Proof.Machine

/-- Below the top of memory, RET jumps to the byte at the stack pointer, whatever it is, and takes it off the stack. -/
theorem exec_ret_of_sp_ne {s : State} (hsp : s.reg .r7 ≠ 255#8) :
    exec .ret s = .next ((s.setReg .r7 (s.reg .r7 + 1#8)).setPc (s.memRead (s.reg .r7))) := by
  have hpop : popPointer (s.reg .r7) = .ok (s.reg .r7 + 1#8) := popPointer_ok.2 ⟨hsp, rfl⟩
  rw [exec, execRet, State.sp_eq, hpop]
  rfl

/-- At the top of memory, the stack pointer of the pop would be 256, and RET faults (D4). -/
theorem exec_ret_of_sp_eq {s : State} (hsp : s.reg .r7 = 255#8) :
    exec .ret s = .next (raise (.addressOutOfRange 256) s) := by
  have hpop : popPointer (s.reg .r7) = .error (.addressOutOfRange 256) := popPointer_error.2 ⟨hsp, rfl⟩
  rw [exec, execRet, State.sp_eq, hpop]
  rfl

/-- Settles O46: the effect and the fault, one lemma each, and the encoding. -/
theorem retPopsIntoTheProgramCounter : Obligations.RetPopsIntoTheProgramCounter :=
  fun _ => ⟨exec_ret_of_sp_ne, exec_ret_of_sp_eq, rfl⟩

end Sys2Proof.Machine
end

section
/-! PROOF. Precise faults (60_exceptions.md rules R158, R159, D7): a step that ends in FAULTED is a fault entry and nothing
more, and no step follows it. -/

namespace Sys2Proof.Machine

/-- A step that ends in FAULTED is the fault entry of some cause, taken in the state the step began in. -/
theorem eq_raise_of_step_faulted {s t : State} (h : step s = .next t) (hfaulted : t.run = .faulted) :
    ∃ c, t = raise c s := by
  obtain ⟨-, ⟨hrunning, -⟩ | ⟨-, -, rfl⟩ | hraise⟩ := step_run_cases h
  · rw [hrunning] at hfaulted
    cases hfaulted
  · rw [State.halt_run] at hfaulted
    cases hfaulted
  · exact hraise

/-- A faulted engine takes no step: every step starts from a running one. -/
theorem step_raise_ne_next (c : FaultCause) (s u : State) : step (raise c s) ≠ .next u := by
  intro h
  have hrun : (raise c s).run = .running := (step_run_cases h).1
  rw [raise_run] at hrun
  cases hrun

/-- Settles O22: the step is a fault entry, whose fields are those of the operation, and no step follows it. -/
theorem faultEntryIsPrecise : Obligations.FaultEntryIsPrecise := by
  intro s t h hfaulted
  obtain ⟨c, rfl⟩ := eq_raise_of_step_faulted h hfaulted
  exact ⟨⟨c, raise_fault c s⟩, raise_regs c s, raise_mem c s, raise_pc c s, raise_out c s, step_raise_ne_next c s⟩

end Sys2Proof.Machine
end

section
/-! PROOF. Loading (70_reset_and_hazards.md rules R184, R185, D15): what the loader answers at each image length, and what
memory it leaves over a cleared one. -/

namespace Sys2Proof.Machine

/-- The loader changes memory alone (rule R184). -/
theorem load_of_le {image : List Byte} (h : image.length ≤ 256) (s : State) :
    load image s = .ok { s with mem := s.mem.writeFrom Config.loadBase image } :=
  if_pos h

theorem load_of_gt {image : List Byte} (h : 256 < image.length) (s : State) : load image s = .error .imageTooLong :=
  if_neg (Nat.not_le.2 h)

/-- Nothing is written at reset, so every cell is clear (20_memory.md rule R52). -/
@[simp] theorem State.reset_memRead (a : Byte) : State.reset.memRead a = 0#8 := rfl

/-- An image written from address 0 over a clear memory: its bytes, then zeros. -/
theorem Memory.read_writeFrom_nil {image : List Byte} (h : image.length ≤ 256) (k : Nat) :
    (Memory.writeFrom [] Config.loadBase image).read k = image.getD k 0#8 := by
  have hfit : Config.loadBase + image.length ≤ Config.memCells := by simpa [Config.loadBase, Config.memCells] using h
  rw [Memory.read_writeFrom Memory.wf_nil hfit, if_pos (show Config.loadBase ≤ k from Nat.zero_le k)]
  rfl

/-- The same, through the loaded state's own read of an address. -/
theorem memRead_of_load_reset {image : List Byte} {t : State} (h : image.length ≤ 256)
    (ht : load image State.reset = .ok t) {k : Nat} (hk : k ≤ 255) :
    t.memRead (BitVec.ofNat 8 k) = image.getD k 0#8 := by
  rw [load_of_le h] at ht
  cases ht
  have haddr : (BitVec.ofNat 8 k).toNat = k := by rw [BitVec.toNat_ofNat, Nat.mod_eq_of_lt (by omega)]
  rw [State.memRead, haddr]
  exact Memory.read_writeFrom_nil h k

/-- Settles O2: the loader changes memory alone, and a cell reads as the image's byte or, past its end, as 0. -/
theorem loaderPlacesTheImage : Obligations.LoaderPlacesTheImage := by
  intro image h
  have hload := load_of_le h State.reset
  refine ⟨_, hload, fun k hk => ?_, fun k hle hk => ?_, rfl, rfl, rfl, rfl, rfl⟩
  · rw [memRead_of_load_reset h hload (by omega), List.getD_eq_getElem _ _ hk]
  · rw [memRead_of_load_reset h hload hk, List.getD_eq_default _ _ hle]

/-- Settles O3: the refusal, and the empty image, which leaves the reset state, where the opcode byte fetched is 0. -/
theorem longImageRefusedEmptyImageFaults : Obligations.LongImageRefusedEmptyImageFaults := by
  have hunknown : State.reset.memRead State.reset.pc ∉ knownOpcodes := by
    rw [State.reset_memRead]
    decide
  have hstep : step State.reset = .next (raise (.unknownInstruction 0#8) State.reset) :=
    step_of_unknownOpcode rfl (Nat.zero_le 253) hunknown
  exact ⟨fun _ s h => load_of_gt h s, State.reset, rfl, State.reset_memRead, hstep⟩

end Sys2Proof.Machine
end

section
/-! PROOF. The encoding (30_encoding.md): decoder and encoder undo each other on byte streams, an encoding that stands
in memory is the instruction the step runs, and the lengths of the formats. -/

namespace Sys2Proof

/-- The window law holds of every instruction. -/
theorem windowDecode (i : Instr) : Laws.WindowDecode.Statement i := by
  cases i with
  | ldi a imm => exact Laws.WindowDecode.ldi a imm
  | prn a => exact Laws.WindowDecode.prn a
  | hlt => exact Laws.WindowDecode.hlt
  | mul a b => exact Laws.WindowDecode.mul a b
  | add a b => exact Laws.WindowDecode.add a b
  | push a => exact Laws.WindowDecode.push a
  | pop a => exact Laws.WindowDecode.pop a
  | call a => exact Laws.WindowDecode.call a
  | ret => exact Laws.WindowDecode.ret

/-- No format has more than two operand bytes (30_encoding.md rule R70). -/
theorem length_operandBytes_le (i : Instr) : (operandBytes i).length ≤ 2 := by
  cases i <;> simp [operandBytes]

/-- The bytes a stream offers as look-ahead begin with the bytes it begins with, as far as a format uses them. -/
theorem take_lookahead {n : Nat} {bytes : List Byte} (hn : n ≤ 2) (hlen : n ≤ bytes.length) :
    [bytes.getD 0 0, bytes.getD 1 0].take n = bytes.take n := by
  apply List.ext_getElem
  · simp [hn, hlen]
  · intro k hk _
    have hk2 : k < 2 := by simp at hk; omega
    interval_cases k
    all_goals simp at hk ⊢; rw [List.getElem?_eq_getElem (by omega), Option.getD_some]

/-- Settles O8: the stream's look-ahead is the operand bytes, which the window law reads back; dropping them leaves the
rest. -/
theorem decodeOfEncodeIsTheInstruction : Obligations.DecodeOfEncodeIsTheInstruction := by
  intro i rest
  have hlen : (operandBytes i).length ≤ (operandBytes i ++ rest).length := by simp
  refine decode_cons_eq_ok_iff.2 ⟨windowDecode i _ _ ?_, ?_, ?_⟩
  · exact (take_lookahead (length_operandBytes_le i) hlen).trans List.take_left
  · rwa [operandCount_opcodeByte]
  · rw [operandCount_opcodeByte]
    exact List.drop_left

/-- Settles O9: the instruction carries the opcode byte and the operand bytes it was read from, and the rest is what
follows them. -/
theorem encodeOfDecodeIsTheBytes : Obligations.EncodeOfDecodeIsTheBytes := by
  intro bytes rest i h
  cases bytes with
  | nil => cases h
  | cons ir bytes =>
    obtain ⟨hwindow, hlen, rfl⟩ := decode_cons_eq_ok_iff.1 h
    obtain ⟨rfl, hops⟩ := decodeWindow_some hwindow
    have hcount : operandCount (opcodeByte i) ≤ 2 := (operandCount_opcodeByte i).trans_le (length_operandBytes_le i)
    rw [take_lookahead hcount hlen] at hops
    rw [encode, List.cons_append, hops, List.take_append_drop]

/-- Bits 7:6 of a byte are its value divided by 64. -/
theorem operandCount_eq_div (ir : Byte) : operandCount ir = ir.toNat / 64 := by
  have hlt : ir.toNat / 2 ^ 6 < 2 ^ 2 := by omega
  calc operandCount ir = (ir.toNat / 2 ^ 6) &&& (2 ^ 2 - 1) := by
        rw [operandCount, BitVec.toNat_and, BitVec.toNat_ushiftRight, Nat.shiftRight_eq_div_pow]
        rfl
    _ = ir.toNat / 2 ^ 6 := Nat.and_two_pow_sub_one_of_lt_two_pow hlt

/-- The length of an encoding is one plus the operand count (30_encoding.md rule R70). -/
theorem length_encode (i : Instr) : (encode i).length = 1 + operandCount (opcodeByte i) := by
  rw [operandCount_opcodeByte]
  exact Nat.add_comm _ 1

/-- Settles O12: the length, the operand count as bits 7:6, and the bound on the operand bytes. -/
theorem lengthIsOnePlusOperandCount : Obligations.LengthIsOnePlusOperandCount := by
  refine fun i => ⟨rfl, length_encode i, operandCount_eq_div _, ?_⟩
  have hle := length_operandBytes_le i
  rw [length_encode, operandCount_opcodeByte]
  omega

/-- Settles O13: each written-out word is the encoding of its instruction; the other two are rejected by the lookup
and by their length. -/
theorem writtenOutWordsDecode : Obligations.WrittenOutWordsDecode := by
  have hread (i : Instr) : decode (encode i) = .ok (i, []) := by
    simpa using decodeOfEncodeIsTheInstruction i []
  have htable : tableBytes 24 0xFF0382 = encode (.ldi 3#8 255#8) := by decide
  refine ⟨hread .hlt, hread .ret, hread (.push 3), hread (.pop 2), hread (.prn 7), hread (.call 1), hread (.ldi 3 255),
    hread (.add 5 6), hread (.mul 1 7), ?_, rfl, rfl⟩
  rw [decodeTableWord, htable, hread]

/-- An instruction read from a window whose bytes past its operand count are others is read from both. -/
theorem decodeWindow_congr {ir a b a' b' : Byte}
    (h : [a, b].take (operandCount ir) = [a', b'].take (operandCount ir)) :
    decodeWindow ir a b = decodeWindow ir a' b' := by
  cases hd : decodeWindow ir a b with
  | none => rw [eq_comm, decodeWindow_isNone_iff, ← decodeWindow_isNone_iff ir a b, hd]
  | some i =>
    obtain ⟨rfl, hops⟩ := decodeWindow_some hd
    exact (windowDecode i a' b' (by rw [← operandCount_opcodeByte, ← h, hops])).symm

/-- Settles O14: the bytes past the operand count are not among those the window law reads. -/
theorem unusedLookaheadBytesDoNotMatter : Obligations.UnusedLookaheadBytesDoNotMatter :=
  fun _ _ _ _ _ => ⟨fun h => decodeWindow_congr (by rw [h]; rfl), fun h => decodeWindow_congr (by rw [h]; rfl)⟩

end Sys2Proof

namespace Sys2Proof.Machine

/-- Settles O16: the look-ahead read in memory is the operand bytes, so the window law finds the instruction. -/
theorem encodedInstructionInMemoryRuns : Obligations.EncodedInstructionInMemoryRuns := by
  intro i s hrun hpc hmem
  have hop : s.memRead s.pc = opcodeByte i := by simpa [encode] using hmem 0 (Nat.succ_pos _)
  have hoperand (k : Nat) (hk : k < (operandBytes i).length) :
      s.memRead (s.pc + BitVec.ofNat 8 (k + 1)) = (operandBytes i)[k] := hmem (k + 1) (Nat.succ_lt_succ hk)
  refine step_of_decodeWindow hrun hpc (hop ▸ windowDecode i _ _ ?_)
  apply List.ext_getElem
  · simpa using length_operandBytes_le i
  · intro k hk hk'
    rw [← hoperand k hk', List.getElem_take]
    have hk2 : k < 2 := by simp at hk; omega
    interval_cases k
    · rfl
    · rfl

end Sys2Proof.Machine
end

section
/-! PROOF. Registers and memory (10_state.md, 20_memory.md sections 1 and 2): what a write changes, and that a canonical
memory is determined by its 256 cells. -/

namespace Sys2Proof.Machine

/-! ## Register writes that follow one another -/

theorem RegFile.set_set_same (x : RegFile) (r : Reg) (v w : Byte) : (x.set r v).set r w = x.set r w := by
  refine RegFile.ext_get fun q => ?_
  by_cases hq : q = r <;> simp [RegFile.get_set, hq]

theorem RegFile.set_comm (x : RegFile) {r q : Reg} (h : r ≠ q) (v w : Byte) :
    (x.set r v).set q w = (x.set q w).set r v := by
  refine RegFile.ext_get fun p => ?_
  by_cases hp : p = q
  · subst hp; simp [RegFile.get_set, Ne.symm h]
  · simp [RegFile.get_set, hp]

/-- Of two writes to one register the second remains. -/
theorem State.setReg_setReg_same (s : State) (r : Reg) (v w : Byte) : (s.setReg r v).setReg r w = s.setReg r w :=
  congrArg (fun x => { s with regs := x }) (s.regs.set_set_same r v w)

/-- Writes to different registers can be exchanged. -/
theorem State.setReg_comm (s : State) {r q : Reg} (h : r ≠ q) (v w : Byte) :
    (s.setReg r v).setReg q w = (s.setReg q w).setReg r v :=
  congrArg (fun x => { s with regs := x }) (s.regs.set_comm h v w)

/-- Settles O1: at reset each register by its name, and the other fields as they are written. -/
theorem resetLeavesTheSpecsValues : Obligations.ResetLeavesTheSpecsValues := by
  refine ⟨fun r => ?_, rfl, State.reset_memRead, rfl, rfl, rfl⟩
  cases r <;> rfl

/-- Settles O5: the register file's law, and the fields a register write keeps. -/
theorem registerWriteThenRead : Obligations.RegisterWriteThenRead :=
  fun s r q v => ⟨s.reg_setReg r q v, s.setReg_pc r v, s.setReg_mem r v, s.setReg_run r v, s.setReg_fault r v,
    s.setReg_out r v⟩

/-! ## Memory -/

/-- A write of a cell is read back there and nowhere else (20_memory.md rule R54). -/
theorem State.memRead_memWrite {s : State} (hm : s.mem.wf) (a v b : Byte) :
    (s.memWrite a v).memRead b = if b = a then v else s.memRead b := by
  simp only [State.memRead, State.memWrite_mem, Memory.read_write hm, BitVec.toNat_inj]

theorem State.wf_memWrite {s : State} (hm : s.mem.wf) (a v : Byte) : (s.memWrite a v).mem.wf :=
  Memory.wf_write hm a.isLt v

/-- Settles O6: read after write, the canonical form, and the fields a memory write keeps. -/
theorem memoryWriteThenRead : Obligations.MemoryWriteThenRead :=
  fun s a v hm => ⟨State.memRead_memWrite hm a v, State.wf_memWrite hm a v, s.memWrite_regs a v, s.memWrite_pc a v,
    s.memWrite_run a v, s.memWrite_fault a v, s.memWrite_out a v⟩

/-- Beyond the 256 cells of a canonical memory nothing is listed. -/
theorem Memory.read_of_ge {m : Memory} (hm : m.wf) {a : Nat} (ha : Config.memCells ≤ a) :
    m.read a = Config.unlistedByte := by
  induction m with
  | nil => rfl
  | cons c m ih =>
    obtain ⟨k, w⟩ := c
    obtain ⟨-, ⟨hk, -⟩, hm'⟩ := Memory.wf_cons.1 hm
    rw [Memory.read, if_neg (by omega), ih hm']

theorem Memory.read_cons_self (k : Nat) (w : Byte) (m : Memory) : Memory.read ((k, w) :: m) k = w := if_pos rfl

/-- Where all cells read the same, the heads have the same address: at the lower of two different ones, one memory would
read a listed byte and the other an unlisted cell. -/
theorem Memory.not_head_lt {k : Nat} {w : Byte} {m n : Memory} (hm : Memory.wf ((k, w) :: m))
    (h : ∀ a, Memory.read ((k, w) :: m) a = n.read a) (hlt : ∀ c ∈ n, k < c.1) : False := by
  obtain ⟨-, ⟨-, hw⟩, -⟩ := Memory.wf_cons.1 hm
  refine hw ?_
  rw [← Memory.read_of_lt hlt, ← h k, Memory.read_cons_self]

/-- Under a common head, equal reads of the whole are equal reads of the tails. -/
theorem Memory.read_tail_eq {k : Nat} {w v : Byte} {m n : Memory} (hm : Memory.wf ((k, w) :: m))
    (hn : Memory.wf ((k, v) :: n)) (h : ∀ a, Memory.read ((k, w) :: m) a = Memory.read ((k, v) :: n) a) (a : Nat) :
    m.read a = n.read a := by
  by_cases ha : k = a
  · subst ha
    rw [Memory.read_of_lt (Memory.wf_cons.1 hm).1, Memory.read_of_lt (Memory.wf_cons.1 hn).1]
  · simpa [Memory.read, ha] using h a

/-- Canonical memories in which every cell reads the same are the same list. -/
theorem Memory.ext_read {m n : Memory} (hm : m.wf) (hn : n.wf) (h : ∀ a, m.read a = n.read a) : m = n := by
  induction m generalizing n with
  | nil =>
    cases n with
    | nil => rfl
    | cons c n => exact (Memory.not_head_lt hn (fun a => (h a).symm) (by simp)).elim
  | cons c m ih =>
    cases n with
    | nil => exact (Memory.not_head_lt hm h (by simp)).elim
    | cons d n =>
      obtain ⟨k, w⟩ := c
      obtain ⟨l, v⟩ := d
      obtain ⟨hltm, -, hm'⟩ := Memory.wf_cons.1 hm
      obtain ⟨hltn, -, hn'⟩ := Memory.wf_cons.1 hn
      obtain hkl | rfl | hkl := Nat.lt_trichotomy k l
      · exact (Memory.not_head_lt hm h (by simpa [hkl] using fun a b hc => hkl.trans (hltn (a, b) hc))).elim
      · have hwv : w = v := by simpa [Memory.read_cons_self] using h k
        rw [hwv, ih hm' hn' (Memory.read_tail_eq hm hn h)]
      · exact (Memory.not_head_lt hn (fun a => (h a).symm)
          (by simpa [hkl] using fun a b hc => hkl.trans (hltm (a, b) hc))).elim

/-- Settles O7: the 256 cells are all that a canonical memory lists. -/
theorem memoriesWithEqualCellsAreEqual : Obligations.MemoriesWithEqualCellsAreEqual := by
  intro s t hs ht h
  refine Memory.ext_read hs ht fun a => ?_
  by_cases ha : a < Config.memCells
  · have haddr : (BitVec.ofNat 8 a).toNat = a := (BitVec.toNat_ofNat a 8).trans (Nat.mod_eq_of_lt ha)
    simpa [State.memRead, haddr] using h (BitVec.ofNat 8 a)
  · rw [Memory.read_of_ge hs (by omega), Memory.read_of_ge ht (by omega)]

/-! ## The ALU on signed readings -/

/-- Settles O41: reduction modulo 256 commutes with both operations, whichever reading the operands have. -/
theorem aluIsRightForSignedReadings : Obligations.AluIsRightForSignedReadings := by
  refine fun r q s => ⟨?_, ?_⟩
  · rw [alu_reg_same, AluOp.exact, narrow]
    simp [BitVec.ofNat_add, BitVec.ofInt_add]
  · rw [alu_reg_same, AluOp.exact, narrow]
    simp [BitVec.ofNat_mul, BitVec.ofInt_mul]

end Sys2Proof.Machine
end

section
/-! PROOF. The stack instructions (44_stack.md, 45_call_return.md): PUSH, POP and CALL, each with its effect and its
faults. -/

namespace Sys2Proof.Machine

/-! ## The states a push and a pop leave -/

/-- A push: the stack pointer one less, and then the value in the cell there. -/
def State.pushed (s : State) (v : Byte) : State :=
  (s.setReg .r7 (s.reg .r7 - 1#8)).memWrite (s.reg .r7 - 1#8) v

@[simp] theorem State.pushed_pc (s : State) (v : Byte) : (s.pushed v).pc = s.pc := rfl

@[simp] theorem State.pushed_reg_sp (s : State) (v : Byte) : (s.pushed v).reg .r7 = s.reg .r7 - 1#8 :=
  s.reg_setReg_same .r7 _

theorem State.pushed_reg_of_ne (s : State) (v : Byte) {q : Reg} (hq : q ≠ .r7) : (s.pushed v).reg q = s.reg q :=
  s.reg_setReg_of_ne _ hq

/-- The byte pushed is read at the cell below the old stack pointer, and every other cell reads as before. -/
theorem State.pushed_memRead {s : State} (hm : s.mem.wf) (v m : Byte) :
    (s.pushed v).memRead m = if m = s.reg .r7 - 1#8 then v else s.memRead m :=
  State.memRead_memWrite (s := s.setReg .r7 (s.reg .r7 - 1#8)) hm _ v m

theorem State.pushed_wf {s : State} (hm : s.mem.wf) (v : Byte) : (s.pushed v).mem.wf :=
  State.wf_memWrite (s := s.setReg .r7 (s.reg .r7 - 1#8)) hm _ v

/-- The first half of a pop: the register takes the byte at the top of the stack. -/
def State.loaded (s : State) (r : Reg) : State := s.setReg r (s.memRead (s.reg .r7))

/-- A pop: after the load, the stack pointer one more than what register 7 then holds. -/
def State.popped (s : State) (r : Reg) : State := (s.loaded r).setReg .r7 ((s.loaded r).reg .r7 + 1#8)

theorem State.loaded_reg_sp_of_ne (s : State) {r : Reg} (hr : r ≠ .r7) : (s.loaded r).reg .r7 = s.reg .r7 :=
  s.reg_setReg_of_ne _ hr.symm

/-- What register 7 holds once POP has loaded its register, in terms of the operand byte. -/
theorem State.loaded_reg_sp (s : State) (r : Reg) :
    (s.loaded r).reg .r7 = if r.index = 7#8 then s.memRead (s.reg .r7) else s.reg .r7 := by
  have hr : Reg.r7 = r ↔ r.index = 7#8 := ⟨fun h => h ▸ rfl, fun h => (Reg.index_injective h).symm⟩
  simp only [State.loaded, State.reg_setReg, hr]

/-- A pop into another register moves the stack pointer up by one. -/
theorem State.popped_eq_of_ne (s : State) {r : Reg} (hr : r ≠ .r7) :
    s.popped r = (s.setReg r (s.memRead (s.reg .r7))).setReg .r7 (s.reg .r7 + 1#8) := by
  rw [State.popped, State.loaded_reg_sp_of_ne s hr, State.loaded]

/-- A pop into the stack pointer leaves the popped byte plus one (D11). -/
theorem State.popped_sp_eq (s : State) : s.popped .r7 = s.setReg .r7 (s.memRead (s.reg .r7) + 1#8) := by
  rw [State.popped, State.loaded, State.reg_setReg_same, State.setReg_setReg_same]

@[simp] theorem State.popped_pc (s : State) (r : Reg) : (s.popped r).pc = s.pc := rfl
@[simp] theorem State.popped_memRead (s : State) (r : Reg) (m : Byte) : (s.popped r).memRead m = s.memRead m := rfl

theorem State.popped_reg_sp (s : State) {r : Reg} (hr : r ≠ .r7) : (s.popped r).reg .r7 = s.reg .r7 + 1#8 := by
  rw [s.popped_eq_of_ne hr, State.reg_setReg_same]

theorem State.popped_reg_same (s : State) {r : Reg} (hr : r ≠ .r7) : (s.popped r).reg r = s.memRead (s.reg .r7) :=
  (State.reg_setReg_of_ne _ _ hr).trans (s.reg_setReg_same r _)

theorem State.popped_reg_of_ne (s : State) {r q : Reg} (hq : q ≠ .r7) (hqr : q ≠ r) : (s.popped r).reg q = s.reg q :=
  (State.reg_setReg_of_ne _ _ hq).trans (s.reg_setReg_of_ne _ hqr)

/-! ## The three handlers -/

/-- PUSH of a register with room on the stack: the stack pointer is decremented, and then the register is read and
stored (44_stack.md rules R130, R131). -/
theorem exec_push_index {r : Reg} {s : State} (hsp : s.reg .r7 ≠ 0#8) (hpc : s.pc.toNat ≤ 253) :
    exec (.push r.index) s =
      .next ((s.pushed ((s.setReg .r7 (s.reg .r7 - 1#8)).reg r)).setPc (s.pc + 2#8)) := by
  rw [exec, execPush, settle_regOperand_index, pushSlot_ok.2 ⟨hsp, rfl⟩,
    successor_two (operandCount_opcodeByte (.push r.index)), if_pos hpc]
  rfl

/-- PUSH with the stack pointer at 0 has no cell to store into (D4). -/
theorem exec_push_index_of_sp_eq {r : Reg} {s : State} (hsp : s.reg .r7 = 0#8) :
    exec (.push r.index) s = .next (raise (.addressOutOfRange (-1)) s) := by
  rw [exec, execPush, settle_regOperand_index, pushSlot_error.2 ⟨hsp, rfl⟩]
  rfl

/-- POP of a register: the load, then the check of the increment, then the successor. -/
theorem exec_pop_index_eq_settle (r : Reg) (s : State) :
    exec (.pop r.index) s = settle s (do
      let sp' ← popPointer ((s.loaded r).reg .r7)
      let next ← successor (.pop r.index) s
      pure (((s.loaded r).setReg .r7 sp').setPc next)) := by
  rw [exec, execPop, settle_regOperand_index]
  rfl

/-- POP into a register: the increment works on what register 7 holds after the load (44_stack.md rules R132, R133). -/
theorem exec_pop_index {r : Reg} {s : State} (hv : (s.loaded r).reg .r7 ≠ 255#8) (hpc : s.pc.toNat ≤ 253) :
    exec (.pop r.index) s = .next ((s.popped r).setPc (s.pc + 2#8)) := by
  rw [exec_pop_index_eq_settle, popPointer_ok.2 ⟨hv, rfl⟩, successor_two (operandCount_opcodeByte (.pop r.index)),
    if_pos hpc]
  rfl

/-- POP where register 7 would hold 255 before the increment has no cell to move to (D4, D11). -/
theorem exec_pop_index_of_sp_eq {r : Reg} {s : State} (hv : (s.loaded r).reg .r7 = 255#8) :
    exec (.pop r.index) s = .next (raise (.addressOutOfRange 256) s) := by
  rw [exec_pop_index_eq_settle, popPointer_error.2 ⟨hv, rfl⟩]
  rfl

/-- CALL of a register with room on the stack: the return address is stored, and then the register is read and jumped to
(45_call_return.md rules R140, R141). -/
theorem exec_call_index {r : Reg} {s : State} (hsp : s.reg .r7 ≠ 0#8) :
    exec (.call r.index) s =
      .next ((s.pushed (s.pc + 2#8)).setPc ((s.setReg .r7 (s.reg .r7 - 1#8)).reg r)) := by
  rw [exec, execCall, settle_regOperand_index, pushSlot_ok.2 ⟨hsp, rfl⟩]
  rfl

/-- CALL with the stack pointer at 0 has no cell for the return address (D4). -/
theorem exec_call_index_of_sp_eq {r : Reg} {s : State} (hsp : s.reg .r7 = 0#8) :
    exec (.call r.index) s = .next (raise (.addressOutOfRange (-1)) s) := by
  rw [exec, execCall, settle_regOperand_index, pushSlot_error.2 ⟨hsp, rfl⟩]
  rfl

/-- Settles O43: the effect, in which the register is read after the decrement, and the two faults. -/
theorem pushStoresTheRegister : Obligations.PushStoresTheRegister := by
  refine fun r a s => ⟨fun hsp hpc => ?_, fun ha => settle_regOperand_of_gt ha s _, exec_push_index_of_sp_eq⟩
  rw [exec_push_index hsp hpc, State.reg_setReg, State.pushed]

/-- Settles O44: the effect and the fault of the increment, for the other registers and for register 7, and the fault of
the register byte. -/
theorem popLoadsTheRegister : Obligations.PopLoadsTheRegister := by
  intro r a s
  have hsp : (s.loaded .r7).reg .r7 = s.memRead (s.reg .r7) := s.reg_setReg_same _ _
  refine ⟨fun hr hv hpc => ?_, fun hv hpc => ?_, fun ha => settle_regOperand_of_gt ha s _, fun hr hv => ?_,
    fun hv => ?_⟩
  · rw [exec_pop_index (by rwa [s.loaded_reg_sp_of_ne hr]) hpc, s.popped_eq_of_ne hr]
  · rw [← s.popped_sp_eq]
    exact exec_pop_index (r := .r7) (by rwa [hsp]) hpc
  · exact exec_pop_index_of_sp_eq (by rwa [s.loaded_reg_sp_of_ne hr])
  · exact exec_pop_index_of_sp_eq (r := .r7) (by rwa [hsp])

/-- Settles O45: the effect, in which the target is read after the decrement, the return address, and the two faults. -/
theorem callPushesAndJumps : Obligations.CallPushesAndJumps := by
  refine fun r a s => ⟨fun hsp hpc => ⟨?_, by bv_omega⟩, fun ha => settle_regOperand_of_gt ha s _,
    exec_call_index_of_sp_eq⟩
  rw [exec_call_index hsp, State.reg_setReg, State.pushed]

end Sys2Proof.Machine
end

section
/-! PROOF. The fault table (60_exceptions.md rules R156, R157): which fault an instruction takes, and what it does
where it takes none, each said once; and from these what a step is. -/

namespace Sys2Proof

/-- The instructions that go on to the one after them (40_engine_cycle.md rule R95): all but HLT, CALL and RET. -/
def Instr.sequential (i : Instr) : Bool := opcodeByte i ∉ ([0x01#8, 0x50#8, 0x11#8] : List Byte)

end Sys2Proof

namespace Sys2Proof.Machine

/-! ## The faults of an instruction -/

/-- The fault of a register byte (rule R152, D3). -/
def registerFault (b : Byte) : Option FaultCause := if 7 < b.toNat then some (.registerIndexOutOfRange b) else none

/-- The fault of the operand check: the first register byte above 7 (30_encoding.md rule R76). -/
def operandFault : Instr → Option FaultCause
  | .ldi a _ | .prn a | .push a | .pop a | .call a => registerFault a
  | .mul a b | .add a b => (registerFault a).or (registerFault b)
  | .hlt | .ret => none

/-- The fault of a stack address: a push at 0, or a pop that would leave 256 (rule R153). -/
def stackFault : Instr → State → Option FaultCause
  | .push _, s | .call _, s => if s.reg .r7 = 0#8 then some (.addressOutOfRange (-1)) else none
  | .pop a, s =>
    if (if a = 7#8 then s.memRead (s.reg .r7) else s.reg .r7) = 255#8 then some (.addressOutOfRange 256) else none
  | .ret, s => if s.reg .r7 = 255#8 then some (.addressOutOfRange 256) else none
  | _, _ => none

/-- The fault of the successor address, which is the instruction's length beyond `pc` (40_engine_cycle.md rule R96,
D5). -/
def successorFault (i : Instr) (s : State) : Option FaultCause :=
  if i.sequential ∧ 255 < s.pc.toNat + (encode i).length then
    some (.addressOutOfRange (s.pc.toNat + (encode i).length))
  else none

/-- The fault an instruction takes, if any, in the order of priority of 60_exceptions.md rule R157. -/
def faultOf (i : Instr) (s : State) : Option FaultCause :=
  (operandFault i).or ((stackFault i s).or (successorFault i s))

/-! ## The effect of an instruction -/

/-- An instruction, with register operands in range, that takes no fault in `s` leads to `t`. -/
inductive Completes : Instr → State → State → Prop
  | ldi {s : State} {r : Reg} {imm : Byte} (hpc : s.pc.toNat ≤ 252) :
    Completes (.ldi r.index imm) s ((s.setReg r imm).setPc (s.pc + 3#8))
  | prn {s : State} {r : Reg} (hpc : s.pc.toNat ≤ 253) :
    Completes (.prn r.index) s ((s.emit (s.reg r)).setPc (s.pc + 2#8))
  | hlt {s : State} : Completes .hlt s s.halt
  | mul {s : State} {r q : Reg} (hpc : s.pc.toNat ≤ 252) :
    Completes (.mul r.index q.index) s ((alu .multiply r q s).setPc (s.pc + 3#8))
  | add {s : State} {r q : Reg} (hpc : s.pc.toNat ≤ 252) :
    Completes (.add r.index q.index) s ((alu .add r q s).setPc (s.pc + 3#8))
  | push {s : State} {r : Reg} (hsp : s.reg .r7 ≠ 0#8) (hpc : s.pc.toNat ≤ 253) :
    Completes (.push r.index) s ((s.pushed ((s.setReg .r7 (s.reg .r7 - 1#8)).reg r)).setPc (s.pc + 2#8))
  | pop {s : State} {r : Reg} (hv : (s.loaded r).reg .r7 ≠ 255#8) (hpc : s.pc.toNat ≤ 253) :
    Completes (.pop r.index) s ((s.popped r).setPc (s.pc + 2#8))
  | call {s : State} {r : Reg} (hsp : s.reg .r7 ≠ 0#8) :
    Completes (.call r.index) s ((s.pushed (s.pc + 2#8)).setPc ((s.setReg .r7 (s.reg .r7 - 1#8)).reg r))
  | ret {s : State} (hsp : s.reg .r7 ≠ 255#8) :
    Completes .ret s ((s.setReg .r7 (s.reg .r7 + 1#8)).setPc (s.memRead (s.reg .r7)))

variable {i : Instr} {s t : State}

/-- What completes is what `exec` answers. -/
theorem Completes.exec_eq (h : Completes i s t) : exec i s = .next t := by
  cases h with
  | ldi hpc => rw [execLdi_index, if_pos hpc]
  | prn hpc => rw [execPrn_index, if_pos hpc]
  | hlt => exact exec_hlt s
  | mul hpc => exact execMul_index hpc
  | add hpc => exact execAdd_index hpc
  | push hsp hpc => exact exec_push_index hsp hpc
  | pop hv hpc => exact exec_pop_index hv hpc
  | call hsp => exact exec_call_index hsp
  | ret hsp => exact exec_ret_of_sp_ne hsp

/-! ## `exec` takes the fault of the table or completes -/

theorem registerFault_of_gt {b : Byte} (h : 7 < b.toNat) : registerFault b = some (.registerIndexOutOfRange b) :=
  if_pos h

theorem registerFault_eq_none_iff {b : Byte} : registerFault b = none ↔ b.toNat ≤ 7 := by
  simp [registerFault]

/-- Of two register bytes an illegal first one is reported. -/
theorem registerFault_or_of_gt {b : Byte} {o : Option FaultCause} (h : 7 < b.toNat) :
    (registerFault b).or o = some (.registerIndexOutOfRange b) := by
  rw [registerFault_of_gt h, Option.some_or]

/-- After a legal first register byte the rest decides. -/
theorem registerFault_or_of_le {b : Byte} {o : Option FaultCause} (h : b.toNat ≤ 7) : (registerFault b).or o = o := by
  rw [registerFault_eq_none_iff.2 h, Option.none_or]

@[simp] theorem registerFault_index (r : Reg) : registerFault r.index = none :=
  registerFault_eq_none_iff.2 r.index_toNat_le

/-- An illegal register byte is the fault, whatever else is wrong. -/
theorem faultOf_of_operandFault {c : FaultCause} (h : operandFault i = some c) : faultOf i s = some c := by
  rw [faultOf, h, Option.some_or]

/-- Under legal register bytes, the stack address comes first. -/
theorem faultOf_of_stackFault {c : FaultCause} (hi : operandFault i = none)
    (h : stackFault i s = some c) : faultOf i s = some c := by
  rw [faultOf, hi, h, Option.none_or, Option.some_or]

/-- Under legal register bytes and a legal stack address, the successor decides. -/
theorem faultOf_of_successor {n : Nat} (hi : operandFault i = none) (hs : stackFault i s = none)
    (hseq : i.sequential = true) (hn : (encode i).length = n) (h : 255 < s.pc.toNat + n) :
    faultOf i s = some (.addressOutOfRange (s.pc.toNat + n)) := by
  rw [faultOf, hi, hs, Option.none_or, Option.none_or, successorFault, hn, if_pos ⟨hseq, h⟩]

/-- POP from beyond `pc = 253`, where no step reaches it (log 3), faults on the successor. -/
theorem exec_pop_index_of_pc_gt {r : Reg} (hv : (s.loaded r).reg .r7 ≠ 255#8)
    (hpc : 253 < s.pc.toNat) : exec (.pop r.index) s = .next (raise (.addressOutOfRange (s.pc.toNat + 2)) s) := by
  rw [exec_pop_index_eq_settle, popPointer_ok.2 ⟨hv, rfl⟩, successor_two (operandCount_opcodeByte (.pop r.index)),
    if_neg (Nat.not_le.2 hpc)]
  rfl

/-- POP, with the order of its last two checks, which `execPop_cases` leaves open. -/
theorem execPop_fault_or_completes {a : Byte} (h : exec (.pop a) s = .next t) :
    (∃ c, faultOf (.pop a) s = some c ∧ t = raise c s) ∨ Completes (.pop a) s t := by
  by_cases ha : 7 < a.toNat
  · rw [exec, execPop, settle_regOperand_of_gt ha] at h
    cases h
    exact .inl ⟨_, faultOf_of_operandFault (registerFault_of_gt ha), rfl⟩
  obtain ⟨r, rfl⟩ := exists_reg_of_le (Nat.le_of_not_lt ha)
  have hlegal : operandFault (.pop r.index) = none := registerFault_index r
  by_cases hv : (s.loaded r).reg .r7 = 255#8
  · rw [exec_pop_index_of_sp_eq hv] at h
    cases h
    exact .inl ⟨_, faultOf_of_stackFault hlegal (if_pos (by rwa [← State.loaded_reg_sp])), rfl⟩
  by_cases hpc : s.pc.toNat ≤ 253
  · rw [exec_pop_index hv hpc] at h
    cases h
    exact .inr (.pop hv hpc)
  · rw [exec_pop_index_of_pc_gt hv (by omega)] at h
    cases h
    have hstack : stackFault (.pop r.index) s = none := if_neg (by rwa [← State.loaded_reg_sp])
    exact .inl ⟨_, faultOf_of_successor (n := 2) hlegal hstack rfl rfl (by omega), rfl⟩

/-- What `exec` answers is the fault of the table, taken, or the effect. -/
theorem exec_fault_or_completes (h : exec i s = .next t) :
    (∃ c, faultOf i s = some c ∧ t = raise c s) ∨ Completes i s t := by
  cases i with
  | ldi a imm =>
    obtain ⟨r, rfl, hpc, rfl⟩ | ⟨ha, rfl⟩ | ⟨ha, hpc, rfl⟩ := execLdi_cases h
    · exact .inr (.ldi hpc)
    · exact .inl ⟨_, faultOf_of_operandFault (registerFault_of_gt ha), rfl⟩
    · exact .inl ⟨_, faultOf_of_successor (n := 3) (registerFault_eq_none_iff.2 ha) rfl rfl rfl (by omega), rfl⟩
  | prn a =>
    obtain ⟨r, rfl, hpc, rfl⟩ | ⟨ha, rfl⟩ | ⟨ha, hpc, rfl⟩ := execPrn_cases h
    · exact .inr (.prn hpc)
    · exact .inl ⟨_, faultOf_of_operandFault (registerFault_of_gt ha), rfl⟩
    · exact .inl ⟨_, faultOf_of_successor (n := 2) (registerFault_eq_none_iff.2 ha) rfl rfl rfl (by omega), rfl⟩
  | hlt =>
    obtain rfl := execHlt_cases h
    exact .inr .hlt
  | mul a b =>
    obtain ⟨r, q, rfl, rfl, hpc, rfl⟩ | ⟨ha, rfl⟩ | ⟨ha, hb, rfl⟩ | ⟨ha, hb, hpc, rfl⟩ := execMul_cases h
    · exact .inr (.mul hpc)
    · exact .inl ⟨_, faultOf_of_operandFault (registerFault_or_of_gt ha), rfl⟩
    · exact .inl ⟨_, faultOf_of_operandFault ((registerFault_or_of_le ha).trans (registerFault_of_gt hb)), rfl⟩
    · have hlegal : operandFault (.mul a b) = none :=
        (registerFault_or_of_le ha).trans (registerFault_eq_none_iff.2 hb)
      exact .inl ⟨_, faultOf_of_successor (n := 3) hlegal rfl rfl rfl (by omega), rfl⟩
  | add a b =>
    obtain ⟨r, q, rfl, rfl, hpc, rfl⟩ | ⟨ha, rfl⟩ | ⟨ha, hb, rfl⟩ | ⟨ha, hb, hpc, rfl⟩ := execAdd_cases h
    · exact .inr (.add hpc)
    · exact .inl ⟨_, faultOf_of_operandFault (registerFault_or_of_gt ha), rfl⟩
    · exact .inl ⟨_, faultOf_of_operandFault ((registerFault_or_of_le ha).trans (registerFault_of_gt hb)), rfl⟩
    · have hlegal : operandFault (.add a b) = none :=
        (registerFault_or_of_le ha).trans (registerFault_eq_none_iff.2 hb)
      exact .inl ⟨_, faultOf_of_successor (n := 3) hlegal rfl rfl rfl (by omega), rfl⟩
  | push a =>
    obtain ⟨r, slot, rfl, hslot, hpc, rfl⟩ | ⟨ha, rfl⟩ | ⟨ha, hsp, rfl⟩ | ⟨ha, hsp, hpc, rfl⟩ := execPush_cases h
    · obtain ⟨hsp, rfl⟩ := pushSlot_ok.1 hslot
      exact .inr (.push hsp hpc)
    · exact .inl ⟨_, faultOf_of_operandFault (registerFault_of_gt ha), rfl⟩
    · exact .inl ⟨_, faultOf_of_stackFault (registerFault_eq_none_iff.2 ha) (if_pos hsp), rfl⟩
    · exact .inl ⟨_, faultOf_of_successor (n := 2) (registerFault_eq_none_iff.2 ha) (if_neg hsp) rfl rfl (by omega),
        rfl⟩
  | pop a => exact execPop_fault_or_completes h
  | call a =>
    obtain ⟨r, slot, rfl, hslot, rfl⟩ | ⟨ha, rfl⟩ | ⟨ha, hsp, rfl⟩ := execCall_cases h
    · obtain ⟨hsp, rfl⟩ := pushSlot_ok.1 hslot
      exact .inr (.call hsp)
    · exact .inl ⟨_, faultOf_of_operandFault (registerFault_of_gt ha), rfl⟩
    · exact .inl ⟨_, faultOf_of_stackFault (registerFault_eq_none_iff.2 ha) (if_pos hsp), rfl⟩
  | ret =>
    obtain ⟨hsp, rfl⟩ | ⟨hsp, rfl⟩ := execRet_cases h
    · exact .inr (.ret hsp)
    · exact .inl ⟨_, faultOf_of_stackFault rfl (if_pos hsp), rfl⟩

/-- A successor that stays in memory passes its check. -/
theorem successorFault_eq_none {n : Nat} (hn : (encode i).length = n) (h : s.pc.toNat + n ≤ 255) :
    successorFault i s = none := by
  rw [successorFault, hn, if_neg fun hgt => Nat.not_lt.2 h hgt.2]

/-- An instruction that completes has no fault in the table. -/
theorem Completes.faultOf_eq_none (h : Completes i s t) : faultOf i s = none := by
  rw [faultOf, Option.or_eq_none_iff, Option.or_eq_none_iff]
  cases h with
  | @ldi _ r imm hpc => exact ⟨registerFault_index r, rfl, successorFault_eq_none (n := 3) rfl (by omega)⟩
  | @prn _ r hpc => exact ⟨registerFault_index r, rfl, successorFault_eq_none (n := 2) rfl (by omega)⟩
  | hlt => exact ⟨rfl, rfl, rfl⟩
  | @mul _ r q hpc =>
    exact ⟨registerFault_or_of_le r.index_toNat_le |>.trans (registerFault_index q), rfl,
      successorFault_eq_none (n := 3) rfl (by omega)⟩
  | @add _ r q hpc =>
    exact ⟨registerFault_or_of_le r.index_toNat_le |>.trans (registerFault_index q), rfl,
      successorFault_eq_none (n := 3) rfl (by omega)⟩
  | @push _ r hsp hpc =>
    exact ⟨registerFault_index r, if_neg hsp, successorFault_eq_none (n := 2) rfl (by omega)⟩
  | @pop _ r hv hpc =>
    rw [State.loaded_reg_sp] at hv
    exact ⟨registerFault_index r, if_neg hv, successorFault_eq_none (n := 2) rfl (by omega)⟩
  | @call _ r hsp => exact ⟨registerFault_index r, if_neg hsp, rfl⟩
  | ret hsp => exact ⟨rfl, if_neg hsp, rfl⟩

/-- The fault of the table is what `exec` takes. -/
theorem exec_of_faultOf {c : FaultCause} (h : faultOf i s = some c) : exec i s = .next (raise c s) := by
  obtain ⟨t, ht⟩ := exec_next i s
  obtain ⟨d, hd, rfl⟩ | hdone := exec_fault_or_completes ht
  · rw [h] at hd
    cases hd
    exact ht
  · rw [hdone.faultOf_eq_none] at h
    cases h

/-! ## What a step is -/

/-- The instruction that the three bytes at `pc` spell. -/
def State.instrAt (s : State) : Option Instr :=
  decodeWindow (s.memRead s.pc) (s.memRead (s.pc + 1#8)) (s.memRead (s.pc + 2#8))

/-- The fault a step takes, if any: of the look-ahead, of the lookup, or of the instruction (rule R157). -/
def stepFault (s : State) : Option FaultCause :=
  if 253 < s.pc.toNat then some (.addressOutOfRange 256)
  else s.instrAt.elim (some (.unknownInstruction (s.memRead s.pc))) (faultOf · s)

/-- A step that takes no fault: the instruction at `pc` completes. -/
structure Executes (i : Instr) (s t : State) : Prop where
  pc_le : s.pc.toNat ≤ 253
  spelled : s.instrAt = some i
  completes : Completes i s t

theorem Executes.stepFault_eq_none (h : Executes i s t) : stepFault s = none := by
  rw [stepFault, if_neg (Nat.not_lt.2 h.pc_le), h.spelled, Option.elim_some, h.completes.faultOf_eq_none]

/-- A running engine takes the fault of the table. -/
theorem step_of_stepFault {c : FaultCause} (hrun : s.run = .running) (h : stepFault s = some c) :
    step s = .next (raise c s) := by
  by_cases hpc : 253 < s.pc.toNat
  · rw [stepFault, if_pos hpc] at h
    cases h
    exact step_of_lookaheadFault hrun hpc
  · rw [stepFault, if_neg hpc] at h
    rw [step_eq_dispatch hrun (Nat.le_of_not_lt hpc), ← State.instrAt]
    cases hi : s.instrAt with
    | none =>
      rw [hi] at h
      cases h
      rfl
    | some i =>
      rw [hi] at h
      exact exec_of_faultOf h

/-- A running engine executes the instruction at `pc` where it completes. -/
theorem Executes.step_eq (h : Executes i s t) (hrun : s.run = .running) : step s = .next t :=
  (step_of_decodeWindow hrun h.pc_le h.spelled).trans h.completes.exec_eq

/-- A step starts from a running engine, and takes the fault of the table or executes the instruction at `pc`. -/
theorem step_fault_or_executes (h : step s = .next t) :
    s.run = .running ∧ ((∃ c, stepFault s = some c ∧ t = raise c s) ∨ ∃ i, Executes i s t) := by
  obtain ⟨hrun, ⟨hpc, rfl⟩ | ⟨hpc, ⟨hi, rfl⟩ | ⟨i, hi, he⟩⟩⟩ := step_cases h
  · exact ⟨hrun, .inl ⟨_, if_pos hpc, rfl⟩⟩
  · have hfault : stepFault s = some (.unknownInstruction (s.memRead s.pc)) := by
      rw [stepFault, if_neg (Nat.not_lt.2 hpc), State.instrAt, hi, Option.elim_none]
    exact ⟨hrun, .inl ⟨_, hfault, rfl⟩⟩
  · obtain ⟨c, hc, rfl⟩ | hdone := exec_fault_or_completes he
    · have hfault : stepFault s = some c := by
        rw [stepFault, if_neg (Nat.not_lt.2 hpc), State.instrAt, hi, Option.elim_some, hc]
      exact ⟨hrun, .inl ⟨c, hfault, rfl⟩⟩
    · exact ⟨hrun, .inr ⟨i, hpc, hi, hdone⟩⟩

end Sys2Proof.Machine
end

section
/-! PROOF. The step against the fault table: that a step is total while the engine runs, that the table is that of
60_exceptions.md rule R156 in the order of rule R157, and the register bytes that fault. -/

namespace Sys2Proof.Machine

/-- HLT aside, an instruction that completes leaves the run state and the fault record. -/
theorem Completes.run_fault_eq {i : Instr} {s t : State} (h : Completes i s t) (hi : i ≠ .hlt) :
    t.run = s.run ∧ t.fault = s.fault := by
  cases h with
  | hlt => exact absurd rfl hi
  | _ => exact ⟨rfl, rfl⟩

/-- An instruction that completes does not change the fault record. -/
theorem Completes.fault_eq {i : Instr} {s t : State} (h : Completes i s t) : t.fault = s.fault := by
  cases h <;> rfl

theorem Completes.run_ne_faulted {i : Instr} {s t : State} (h : Completes i s t) (hrun : s.run = .running) :
    t.run ≠ .faulted := by
  by_cases hi : i = .hlt
  · subst hi
    cases h
    simp
  · simp [(h.run_fault_eq hi).1, hrun]

/-- Settles O19: a running engine always steps, and each stop is that of its run state. -/
theorem engineStepsExactlyWhileRunning : Obligations.EngineStepsExactlyWhileRunning := by
  refine fun s => ⟨⟨fun ⟨t, h⟩ => (step_cases h).1, step_next⟩, fun h => ?_, fun h => ?_⟩
  · simp [step, stopReason, h]
  · simp [step, stopReason, h]

/-- Settles O20: the handlers are total, and of each it is known what it does to the run state. -/
theorem everyInstructionAnswersANextState : Obligations.EveryInstructionAnswersANextState := by
  intro i s
  obtain ⟨t, ht⟩ := exec_next i s
  refine ⟨t, ht, ?_⟩
  obtain ⟨hi, rfl⟩ | hfault | ⟨hrun, -⟩ := exec_run_cases ht
  · exact .inr (.inl ⟨rfl, hi⟩)
  · exact .inr (.inr hfault)
  · exact .inl hrun

/-! ## The table of rule R156 -/

/-- The fault table written out, over `pc`, the three bytes there, the stack pointer and the byte it points at. -/
def faultRows (pc ir a b sp top : Byte) : Option FaultCause :=
  if 254 ≤ pc.toNat then some (.addressOutOfRange 256)
  else if ir ∉ ([0x82#8, 0x47#8, 0x01#8, 0xA2#8, 0xA0#8, 0x45#8, 0x46#8, 0x50#8, 0x11#8] : List Byte) then
    some (.unknownInstruction ir)
  else if ir ∉ ([0x01#8, 0x11#8] : List Byte) ∧ 8 ≤ a.toNat then some (.registerIndexOutOfRange a)
  else if ir ∈ ([0xA2#8, 0xA0#8] : List Byte) ∧ 8 ≤ b.toNat then some (.registerIndexOutOfRange b)
  else if ir ∈ ([0x45#8, 0x50#8] : List Byte) ∧ sp = 0#8 then some (.addressOutOfRange (-1))
  else if ir = 0x46#8 ∧ (if a = 7#8 then top else sp) = 255#8 then some (.addressOutOfRange 256)
  else if ir = 0x11#8 ∧ sp = 255#8 then some (.addressOutOfRange 256)
  else if ir ∈ ([0x82#8, 0xA2#8, 0xA0#8] : List Byte) ∧ pc = 253#8 then some (.addressOutOfRange 256)
  else none

/-- The fault table at a state. -/
def tableFault (s : State) : Option FaultCause :=
  faultRows s.pc (s.memRead s.pc) (s.memRead (s.pc + 1#8)) (s.memRead (s.pc + 2#8)) (s.reg .r7) (s.memRead (s.reg .r7))

/-- What three bytes can spell: one of nine instructions, with their operands from the bytes after the opcode. -/
theorem decodeWindow_cases {ir a b : Byte} {i : Instr} (h : decodeWindow ir a b = some i) :
    ir = opcodeByte i ∧
      (i = .ldi a b ∨ i = .prn a ∨ i = .hlt ∨ i = .mul a b ∨ i = .add a b ∨ i = .push a ∨ i = .pop a ∨
        i = .call a ∨ i = .ret) := by
  obtain ⟨rfl, hops⟩ := decodeWindow_some h
  rw [operandCount_opcodeByte] at hops
  refine ⟨rfl, ?_⟩
  cases i <;> simp_all [operandBytes]

/-- A row of a table, then the rows that follow. -/
theorem or_ite_some {p : Prop} [Decidable p] {α : Type} (x : α) (o u : Option α) :
    (if p then some x else o).or u = if p then some x else o.or u := by
  split <;> rfl

/-- The rows of the table about register bytes, regA before regB. -/
theorem operandFault_eq_rows {ir a b : Byte} {i : Instr} (h : decodeWindow ir a b = some i) : operandFault i =
    if ir ∉ ([0x01#8, 0x11#8] : List Byte) ∧ 8 ≤ a.toNat then some (.registerIndexOutOfRange a)
    else if ir ∈ ([0xA2#8, 0xA0#8] : List Byte) ∧ 8 ≤ b.toNat then some (.registerIndexOutOfRange b)
    else none := by
  obtain ⟨rfl, rfl | rfl | rfl | rfl | rfl | rfl | rfl | rfl | rfl⟩ := decodeWindow_cases h
  all_goals simp [operandFault, registerFault, Nat.lt_iff_add_one_le, or_ite_some, opcodeByte]

/-- The rows of the table about the stack address. -/
theorem stackFault_eq_rows {ir a b : Byte} {i : Instr} (h : decodeWindow ir a b = some i) (s : State) :
    stackFault i s =
      if ir ∈ ([0x45#8, 0x50#8] : List Byte) ∧ s.reg .r7 = 0#8 then some (.addressOutOfRange (-1))
      else if ir = 0x46#8 ∧ (if a = 7#8 then s.memRead (s.reg .r7) else s.reg .r7) = 255#8 then
        some (.addressOutOfRange 256)
      else if ir = 0x11#8 ∧ s.reg .r7 = 255#8 then some (.addressOutOfRange 256)
      else none := by
  obtain ⟨rfl, rfl | rfl | rfl | rfl | rfl | rfl | rfl | rfl | rfl⟩ := decodeWindow_cases h
  all_goals simp [stackFault, opcodeByte]

/-- The successor check of a three-byte instruction that a step reaches. -/
theorem successorFault_three {i : Instr} {s : State} (hseq : i.sequential = true) (hn : (encode i).length = 3)
    (hpc : s.pc.toNat ≤ 253) :
    successorFault i s = if s.pc = 253#8 then some (.addressOutOfRange 256) else none := by
  by_cases h : s.pc = 253#8
  · simp [successorFault, hseq, hn, h]
  · rw [if_neg h]
    exact successorFault_eq_none hn (by bv_omega)

/-- The row of the table about the successor: up to `pc = 253`, only a three-byte instruction at 253 has none. -/
theorem successorFault_eq_row {ir a b : Byte} {i : Instr} {s : State} (h : decodeWindow ir a b = some i)
    (hpc : s.pc.toNat ≤ 253) : successorFault i s =
      if ir ∈ ([0x82#8, 0xA2#8, 0xA0#8] : List Byte) ∧ s.pc = 253#8 then some (.addressOutOfRange 256) else none := by
  obtain ⟨rfl, rfl | rfl | rfl | rfl | rfl | rfl | rfl | rfl | rfl⟩ := decodeWindow_cases h
  case inl | inr.inr.inr.inl | inr.inr.inr.inr.inl => simpa [opcodeByte] using successorFault_three rfl rfl hpc
  all_goals simp [successorFault, Instr.sequential, opcodeByte, encode, operandBytes, hpc]

/-- The table's order of the nine opcode bytes is the model's. -/
theorem knownOpcodes_perm :
    ([0x82#8, 0x47#8, 0x01#8, 0xA2#8, 0xA0#8, 0x45#8, 0x46#8, 0x50#8, 0x11#8] : List Byte).Perm knownOpcodes := by
  decide

theorem stepFault_eq_tableFault (s : State) : stepFault s = tableFault s := by
  by_cases hpc : 254 ≤ s.pc.toNat
  · exact (if_pos hpc).trans (if_pos hpc).symm
  refine (if_neg hpc).trans (Eq.trans ?_ (if_neg hpc).symm)
  cases hi : s.instrAt with
  | none =>
    have hir := (decodeWindow_eq_none_iff _ _ _).1 hi
    rw [Option.elim_none, if_pos (mt knownOpcodes_perm.mem_iff.1 hir)]
  | some i =>
    have hir : s.memRead s.pc ∈ knownOpcodes := by
      by_contra hnot
      rw [State.instrAt, (decodeWindow_eq_none_iff _ _ _).2 hnot] at hi
      cases hi
    rw [Option.elim_some, if_neg (not_not.2 (knownOpcodes_perm.mem_iff.2 hir)), faultOf, operandFault_eq_rows hi,
      stackFault_eq_rows hi, successorFault_eq_row hi (by omega)]
    simp only [or_ite_some, Option.none_or]

/-- Settles O23: a step takes the fault of the table, and where the table has none it executes the instruction. -/
theorem faultsAreThoseOfTheTable : Obligations.FaultsAreThoseOfTheTable := by
  intro s t h
  change (∀ c, tableFault s = some c → t = raise c s) ∧ (tableFault s = none → t.run ≠ .faulted)
  rw [← stepFault_eq_tableFault]
  obtain ⟨hrun, ⟨c, hc, rfl⟩ | ⟨i, hi⟩⟩ := step_fault_or_executes h
  · simp [hc]
  · exact ⟨fun c hc => by simp [hi.stepFault_eq_none] at hc, fun _ => hi.completes.run_ne_faulted hrun⟩

/-! ## Register bytes -/

/-- The operand check reports the first operand byte above 7, which is a register byte. -/
theorem operandFault_of_not_wellFormed {i : Instr} (h : i.wellFormed = false) :
    ∃ c, ((operandBytes i).find? fun x => decide (7 < x.toNat)) = some c ∧
      operandFault i = some (.registerIndexOutOfRange c) := by
  cases i with
  | hlt | ret => cases h
  | ldi a | prn a | push a | pop a | call a =>
    have ha : 7 < a.toNat := by simpa [Instr.wellFormed, legalRegister] using h
    exact ⟨a, by simp [operandBytes, ha], registerFault_of_gt ha⟩
  | mul a b | add a b =>
    by_cases ha : 7 < a.toNat
    · exact ⟨a, by simp [operandBytes, ha], registerFault_or_of_gt ha⟩
    · have hb : 7 < b.toNat := by simpa [Instr.wellFormed, legalRegister, Nat.le_of_not_lt ha] using h
      exact ⟨b, by simp [operandBytes, ha, hb],
        (registerFault_or_of_le (Nat.le_of_not_lt ha)).trans (registerFault_of_gt hb)⟩

/-- The operand check passes on legal register bytes. -/
theorem operandFault_eq_none_of_wellFormed {i : Instr} (h : i.wellFormed = true) : operandFault i = none := by
  cases i with
  | hlt | ret => rfl
  | ldi a | prn a | push a | pop a | call a =>
    exact registerFault_eq_none_iff.2 (by simpa [Instr.wellFormed, legalRegister] using h)
  | mul a b | add a b =>
    obtain ⟨ha, hb⟩ : a.toNat ≤ 7 ∧ b.toNat ≤ 7 := by simpa [Instr.wellFormed, legalRegister] using h
    exact (registerFault_or_of_le ha).trans (registerFault_eq_none_iff.2 hb)

/-- The checks after the operand check are about addresses. -/
theorem eq_addressOutOfRange_of_faultOf {i : Instr} {s : State} {c : FaultCause} (hi : operandFault i = none)
    (h : faultOf i s = some c) : ∃ a, c = .addressOutOfRange a := by
  rw [faultOf, hi, Option.none_or, Option.or_eq_some_iff] at h
  obtain h | ⟨-, h⟩ := h
  · cases i <;> simp [stackFault] at h <;> exact ⟨_, h.2.symm⟩
  · simp only [successorFault, Option.ite_none_right_eq_some] at h
    exact ⟨_, (Option.some.inj h.2).symm⟩

/-- Settles O24: the operand check comes before all others, and only it reports a register byte. -/
theorem illegalRegisterBytesFault : Obligations.IllegalRegisterBytesFault := by
  refine ⟨fun i s h => ?_, fun i s t c h he => ?_⟩
  · obtain ⟨c, hfind, hfault⟩ := operandFault_of_not_wellFormed h
    exact ⟨c, hfind, exec_of_faultOf (faultOf_of_operandFault hfault)⟩
  · obtain ⟨d, hd, rfl⟩ | hdone := exec_fault_or_completes he
    · obtain ⟨a, rfl⟩ := eq_addressOutOfRange_of_faultOf (operandFault_eq_none_of_wellFormed h) hd
      exact .inr (by simp)
    · exact .inl hdone.fault_eq

end Sys2Proof.Machine
end

section
/-! PROOF. What an instruction that completes writes: the registers, the cell, the output and the program counter,
each said once over the nine instructions, in terms of the opcode byte and the operand bytes. -/

namespace Sys2Proof.Machine

variable {i : Instr} {s t : State}

/-- The first operand byte is the byte after the opcode (30_encoding.md rule R72). -/
theorem Executes.head?_operandBytes (h : Executes i s t) (hop : opcodeByte i ∉ ([0x01#8, 0x11#8] : List Byte)) :
    (operandBytes i).head? = some (s.memRead (s.pc + 1#8)) := by
  obtain ⟨-, rfl | rfl | rfl | rfl | rfl | rfl | rfl | rfl | rfl⟩ := decodeWindow_cases h.spelled
  case inr.inr.inl | inr.inr.inr.inr.inr.inr.inr.inr => simp [opcodeByte] at hop
  all_goals rfl

/-- The second operand byte is the one after it. -/
theorem Executes.getElem?_operandBytes (h : Executes i s t) (hop : opcodeByte i ∈ ([0xA2#8, 0xA0#8] : List Byte)) :
    (operandBytes i)[1]? = some (s.memRead (s.pc + 2#8)) := by
  obtain ⟨-, rfl | rfl | rfl | rfl | rfl | rfl | rfl | rfl | rfl⟩ := decodeWindow_cases h.spelled
  case inr.inr.inr.inl | inr.inr.inr.inr.inl => rfl
  all_goals simp [opcodeByte] at hop

theorem Executes.opcodeByte_eq (h : Executes i s t) : opcodeByte i = s.memRead s.pc :=
  (decodeWindow_some h.spelled).1

/-- Only PUSH and CALL write a cell, the one below the stack pointer. -/
theorem Completes.mem_cases (h : Completes i s t) :
    t.mem = s.mem ∨ (opcodeByte i ∈ ([0x45#8, 0x50#8] : List Byte) ∧ s.reg .r7 ≠ 0#8 ∧
      ∃ v, t.mem = (s.memWrite (s.reg .r7 - 1#8) v).mem) := by
  cases h with
  | push hsp hpc => exact .inr ⟨by simp [opcodeByte], hsp, _, rfl⟩
  | call hsp => exact .inr ⟨by simp [opcodeByte], hsp, _, rfl⟩
  | _ => exact .inl rfl

/-- Only PRN emits, the value of the register it names. -/
theorem Completes.out_cases (h : Completes i s t) :
    t.out = s.out ∨ ∃ r, i = .prn r.index ∧ t.out = s.out ++ [s.reg r] := by
  cases h with
  | prn hpc => exact .inr ⟨_, rfl, rfl⟩
  | _ => exact .inl rfl

/-- A register keeps its value unless it is the destination of LDI, MUL, ADD or POP, or the stack pointer of PUSH,
POP, CALL or RET (10_state.md rule R22, the "Writes" column). -/
theorem Completes.reg_cases (h : Completes i s t) (q : Reg) :
    t.reg q = s.reg q ∨
      (opcodeByte i ∈ ([0x82#8, 0xA2#8, 0xA0#8, 0x46#8] : List Byte) ∧ (operandBytes i).head? = some q.index) ∨
      (opcodeByte i ∈ ([0x45#8, 0x46#8, 0x50#8, 0x11#8] : List Byte) ∧ q = .r7) := by
  cases h with
  | prn | hlt => exact .inl rfl
  | @ldi _ r imm | @mul _ r p | @add _ r p =>
    by_cases hq : q = r
    · exact .inr (.inl ⟨by simp [opcodeByte], by simp [operandBytes, hq]⟩)
    · exact .inl (s.reg_setReg_of_ne _ hq)
  | push | call | ret =>
    by_cases hq : q = .r7
    · exact .inr (.inr ⟨by simp [opcodeByte], hq⟩)
    · exact .inl (s.reg_setReg_of_ne _ hq)
  | @pop _ r =>
    by_cases hq : q = .r7
    · exact .inr (.inr ⟨by simp [opcodeByte], hq⟩)
    by_cases hr : q = r
    · exact .inr (.inl ⟨by simp [opcodeByte], by simp [operandBytes, hr]⟩)
    · exact .inl ((State.reg_setReg_of_ne _ _ hq).trans (s.reg_setReg_of_ne _ hr))

/-- The sequential instructions go on to the address after their last byte (40_engine_cycle.md rule R95). -/
theorem Completes.toNat_pc (h : Completes i s t) (hseq : i.sequential = true) :
    t.pc.toNat = s.pc.toNat + (encode i).length := by
  cases h with
  | hlt | call | ret => cases hseq
  | ldi hpc | mul hpc | add hpc =>
    change (s.pc + 3#8).toNat = s.pc.toNat + 3
    bv_omega
  | prn hpc | push _ hpc | pop _ hpc =>
    change (s.pc + 2#8).toNat = s.pc.toNat + 2
    bv_omega

end Sys2Proof.Machine
end

section
/-! PROOF. The invariant (10_state.md rules R31, R38): it holds at reset, loading and every step keep it, so it holds
of every state that an image leads to. -/

namespace Sys2Proof.Machine

/-- Settles O25: nothing is listed in memory, nothing is recorded, and the engine runs. -/
theorem resetMeetsTheInvariant : Obligations.ResetMeetsTheInvariant where
  memory := Memory.wf_nil
  recorded := by simp [State.reset]
  fits := by simp [State.reset]

/-- What holds of the cause of a row and of the rows that follow holds of the table. -/
theorem forall_mem_row {p : Prop} [Decidable p] {x : FaultCause} {o : Option FaultCause} {Q : FaultCause → Prop}
    (hx : p → Q x) (ho : ∀ c ∈ o, Q c) : ∀ c ∈ (if p then some x else o), Q c := by
  by_cases hp : p
  · simpa [hp] using hx hp
  · simpa [hp] using ho

/-- Every cause in the fault table is one the hardware can record (60_exceptions.md rules R150 to R154). -/
theorem recordable_of_tableFault (s : State) : ∀ c ∈ tableFault s, c.recordable = true := by
  have hunknown {ir : Byte}
      (h : ir ∉ ([0x82#8, 0x47#8, 0x01#8, 0xA2#8, 0xA0#8, 0x45#8, 0x46#8, 0x50#8, 0x11#8] : List Byte)) :
      (FaultCause.unknownInstruction ir).recordable = true := by
    rw [FaultCause.recordable, (decodeWindow_eq_none_iff ir 0#8 0#8).2 (mt knownOpcodes_perm.mem_iff.2 h),
      Option.isNone_none]
  have hregister {b : Byte} (h : 7 < b.toNat) : (FaultCause.registerIndexOutOfRange b).recordable = true := by
    simpa [FaultCause.recordable] using h
  rw [tableFault, faultRows]
  refine forall_mem_row (fun _ => rfl) <| forall_mem_row hunknown <|
    forall_mem_row (fun h => hregister h.2) <| forall_mem_row (fun h => hregister h.2) <|
    forall_mem_row (fun _ => rfl) <| forall_mem_row (fun _ => rfl) <| forall_mem_row (fun _ => rfl) <|
    forall_mem_row (fun _ => rfl) ?_
  simp

/-- Loading keeps the invariant: it writes cells of memory alone, and all of them fit. -/
theorem State.Inv.load {image : List Byte} {s t : State} (hs : s.Inv) (h : load image s = .ok t) : t.Inv := by
  by_cases hlen : image.length ≤ 256
  · rw [load_of_le hlen] at h
    cases h
    exact ⟨Memory.wf_writeFrom hs.memory ((Nat.zero_add _).trans_le hlen), hs.recorded, hs.fits⟩
  · rw [load_of_gt (Nat.lt_of_not_le hlen)] at h
    cases h

/-- A completed instruction keeps the canonical form of memory. -/
theorem Completes.wf {i : Instr} {s t : State} (h : Completes i s t) (hm : s.mem.wf) : t.mem.wf := by
  obtain hmem | ⟨-, -, v, hmem⟩ := h.mem_cases
  · rwa [hmem]
  · rw [hmem]
    exact State.wf_memWrite hm _ v

/-- Taking a fault the hardware can record keeps the invariant. -/
theorem State.Inv.raise {s : State} {c : FaultCause} (hs : s.Inv) (hc : c.recordable = true) : (raise c s).Inv where
  memory := hs.memory
  recorded := by simp
  fits := by simp [FaultRecord.fits, hc]

/-- A completed instruction keeps the invariant of a running engine, where nothing is recorded before or after. -/
theorem Completes.inv {i : Instr} {s t : State} (h : Completes i s t) (hs : s.Inv) (hrun : s.run = .running) :
    t.Inv := by
  have hnone : t.fault = none := by
    rw [h.fault_eq, ← Option.not_isSome_iff_eq_none, hs.recorded, hrun]
    simp
  exact ⟨h.wf hs.memory, by simp [hnone, h.run_ne_faulted hrun], by simp [hnone]⟩

/-- Settles O26: a step takes a fault of the table, whose causes can be recorded, or completes an instruction. -/
theorem stepKeepsTheInvariant : Obligations.StepKeepsTheInvariant := by
  intro s t hs h
  obtain ⟨hrun, ⟨c, hc, rfl⟩ | ⟨i, hi⟩⟩ := step_fault_or_executes h
  · rw [stepFault_eq_tableFault] at hc
    exact hs.raise (recordable_of_tableFault s c hc)
  · exact hi.completes.inv hs hrun

/-- Settles O27: by induction on how the state is reached, from reset by loading and by steps. -/
theorem reachableStatesMeetTheInvariant : Obligations.ReachableStatesMeetTheInvariant := by
  intro s h
  induction h with
  | booted hboot => exact State.Inv.load resetMeetsTheInvariant hboot
  | stepped _ hstep ih => exact stepKeepsTheInvariant _ _ ih hstep

end Sys2Proof.Machine
end

section
/-! PROOF. The whole-machine rules: what a step can change in memory, in the output and in the registers, and where it
leaves the program counter. Each is what the fault entry and the nine completed instructions have in common. -/

namespace Sys2Proof.Machine

/-- Settles O28: a fault writes no cell, and a completed instruction only the one below the stack pointer. -/
theorem onlyPushAndCallChangeMemory : Obligations.OnlyPushAndCallChangeMemory := by
  intro s t a hm h hne
  obtain ⟨-, ⟨c, -, rfl⟩ | ⟨i, hi⟩⟩ := step_fault_or_executes h
  · exact absurd (raise_memRead c s a) hne
  obtain hmem | ⟨hop, hsp, v, hmem⟩ := hi.completes.mem_cases
  · exact absurd (congrArg (Memory.read · a.toNat) hmem) hne
  · have hread : t.memRead a = if a = s.reg .r7 - 1#8 then v else s.memRead a :=
      (congrArg (Memory.read · a.toNat) hmem).trans (State.memRead_memWrite hm _ v a)
    have ha : a = s.reg .r7 - 1#8 := by
      by_contra hother
      exact hne (hread.trans (if_neg hother))
    rw [hi.opcodeByte_eq] at hop
    exact ⟨by simpa using hop, pushSlot_ok.2 ⟨hsp, ha⟩, by bv_omega⟩

/-- Settles O29: a fault emits nothing, and of the completed instructions only PRN does. -/
theorem onlyPrnEmits : Obligations.OnlyPrnEmits := by
  intro s t h
  obtain ⟨-, ⟨c, -, rfl⟩ | ⟨i, hi⟩⟩ := step_fault_or_executes h
  · exact .inl (raise_out c s)
  obtain hout | ⟨r, rfl, hout⟩ := hi.completes.out_cases
  · exact .inl hout
  · have hreg : some r.index = some (s.memRead (s.pc + 1#8)) := hi.head?_operandBytes (by simp [opcodeByte])
    exact .inr ⟨hi.opcodeByte_eq.symm, r, (Option.some.inj hreg).symm, hout⟩

/-- A step appends at most one value to the output. -/
theorem step_out {s t : State} (h : step s = .next t) : ∃ l, t.out = s.out ++ l ∧ l.length ≤ 1 := by
  obtain hout | ⟨-, r, -, hout⟩ := onlyPrnEmits s t h
  · exact ⟨[], by simpa using hout, Nat.zero_le 1⟩
  · exact ⟨[s.reg r], hout, le_rfl⟩

/-- Settles O30: by induction on the number of steps. -/
theorem outputOnlyGrows : Obligations.OutputOnlyGrows := by
  intro k
  induction k with
  | zero => exact fun s => ⟨[], by simp [runFor], le_rfl⟩
  | succ k ih =>
    intro s
    cases h : step s with
    | next t =>
      obtain ⟨l, hl, hlen⟩ := step_out h
      obtain ⟨l', hl', hlen'⟩ := ih t
      refine ⟨l ++ l', ?_, by simp; omega⟩
      rw [runFor, h, hl', hl, List.append_assoc]
    | fault r => exact ⟨[], by simp [runFor, h], Nat.zero_le _⟩
    | refused r => exact ⟨[], by simp [runFor, h], Nat.zero_le _⟩

/-- An instruction that emits nothing completes alike under another output. -/
theorem exists_emitted_of_out_eq {i : Instr} {s t : State} {l : List Byte} (hout : t.out = s.out)
    (h : Completes i { s with out := l } { t with out := l }) :
    ∃ e, t.out = s.out ++ e ∧ Completes i { s with out := l } { t with out := l ++ e } :=
  ⟨[], by simpa using hout, by simpa using h⟩

/-- A completed instruction appends the same values to any other output, and changes all else alike. -/
theorem Completes.with_out {i : Instr} {s t : State} (h : Completes i s t) (l : List Byte) :
    ∃ e, t.out = s.out ++ e ∧ Completes i { s with out := l } { t with out := l ++ e } := by
  cases h with
  | ldi hpc => exact exists_emitted_of_out_eq rfl (.ldi hpc)
  | @prn _ r hpc => exact ⟨[s.reg r], rfl, .prn hpc⟩
  | hlt => exact exists_emitted_of_out_eq rfl .hlt
  | mul hpc => exact exists_emitted_of_out_eq rfl (.mul hpc)
  | add hpc => exact exists_emitted_of_out_eq rfl (.add hpc)
  | push hsp hpc => exact exists_emitted_of_out_eq rfl (.push hsp hpc)
  | pop hv hpc => exact exists_emitted_of_out_eq rfl (.pop hv hpc)
  | call hsp => exact exists_emitted_of_out_eq rfl (.call hsp)
  | ret hsp => exact exists_emitted_of_out_eq rfl (.ret hsp)

/-- Settles O31: neither the fault table nor an instruction's effect looks at the output. -/
theorem outputIsWriteOnly : Obligations.OutputIsWriteOnly := by
  intro s t l h
  obtain ⟨hrun, ⟨c, hc, rfl⟩ | ⟨i, hi⟩⟩ := step_fault_or_executes h
  · refine ⟨[], by simp, ?_⟩
    rw [List.append_nil]
    rw [stepFault_eq_tableFault] at hc
    exact step_of_stepFault (s := { s with out := l }) hrun ((stepFault_eq_tableFault _).trans hc)
  · obtain ⟨e, hout, hdone⟩ := hi.completes.with_out l
    exact ⟨e, hout, Executes.step_eq ⟨hi.pc_le, hi.spelled, hdone⟩ hrun⟩

/-- Settles O32: a fault writes no register, and a completed instruction those of the table, in terms of its bytes. -/
theorem registerWritersAreThoseOfTheTable : Obligations.RegisterWritersAreThoseOfTheTable := by
  intro s t q h hne
  obtain ⟨-, ⟨c, -, rfl⟩ | ⟨i, hi⟩⟩ := step_fault_or_executes h
  · exact absurd (raise_reg c s q) hne
  rw [← hi.opcodeByte_eq]
  obtain hreg | ⟨hop, hhead⟩ | hstack := hi.completes.reg_cases q
  · exact absurd hreg hne
  · have hoperand : ∀ ir ∈ ([0x82#8, 0xA2#8, 0xA0#8, 0x46#8] : List Byte), ir ∉ ([0x01#8, 0x11#8] : List Byte) := by
      decide
    rw [hi.head?_operandBytes (hoperand _ hop), Option.some.injEq] at hhead
    exact .inl ⟨hop, hhead⟩
  · exact .inr hstack

/-- Instructions of three bytes go on to the next one. -/
theorem sequential_of_three {i : Instr} (h : opcodeByte i ∈ ([0x82#8, 0xA2#8, 0xA0#8] : List Byte)) :
    i.sequential = true ∧ (encode i).length = 3 := by
  cases i with
  | ldi | mul | add => exact ⟨rfl, rfl⟩
  | _ => simp [opcodeByte] at h

/-- So do PRN, PUSH and POP, of two bytes. -/
theorem sequential_of_two {i : Instr} (h : opcodeByte i ∈ ([0x47#8, 0x45#8, 0x46#8] : List Byte)) :
    i.sequential = true ∧ (encode i).length = 2 := by
  cases i with
  | prn | push | pop => exact ⟨rfl, rfl⟩
  | _ => simp [opcodeByte] at h

/-- HLT leaves `pc` at its own byte (D10). -/
theorem Completes.pc_of_hlt {i : Instr} {s t : State} (h : Completes i s t) (hop : opcodeByte i = 0x01#8) :
    t.pc = s.pc := by
  cases h with
  | hlt => rfl
  | _ => simp [opcodeByte] at hop

/-- CALL goes to the register it names, read after the decrement of the stack pointer (D11). -/
theorem Completes.pc_of_call {i : Instr} {s t : State} (h : Completes i s t) (hop : opcodeByte i = 0x50#8) :
    ∃ r, (operandBytes i).head? = some (Reg.index r) ∧ t.pc = t.reg r := by
  cases h with
  | @call _ r => exact ⟨r, rfl, rfl⟩
  | _ => simp [opcodeByte] at hop

/-- RET goes to the byte at the top of the stack. -/
theorem Completes.pc_of_ret {i : Instr} {s t : State} (h : Completes i s t) (hop : opcodeByte i = 0x11#8) :
    t.pc = s.memRead (s.reg .r7) := by
  cases h with
  | ret => rfl
  | _ => simp [opcodeByte] at hop

/-- Settles O34: a fault leaves `pc`; the clauses for a completed instruction are one lemma each. -/
theorem programCounterAfterEachInstruction : Obligations.ProgramCounterAfterEachInstruction := by
  intro s t h
  obtain ⟨hrun, ⟨c, -, rfl⟩ | ⟨i, hi⟩⟩ := step_fault_or_executes h
  · exact ⟨fun _ => raise_pc c s, fun hne => absurd (raise_run c s) hne⟩
  refine ⟨fun hfaulted => absurd hfaulted (hi.completes.run_ne_faulted hrun), fun _ => ?_⟩
  rw [← hi.opcodeByte_eq]
  refine ⟨fun hop => ?_, fun hop => ?_, hi.completes.pc_of_hlt, fun hop => ?_, hi.completes.pc_of_ret⟩
  · obtain ⟨hseq, hlen⟩ := sequential_of_three hop
    rw [hi.completes.toNat_pc hseq, hlen]
  · obtain ⟨hseq, hlen⟩ := sequential_of_two hop
    rw [hi.completes.toNat_pc hseq, hlen]
  · obtain ⟨r, hhead, hpc⟩ := hi.completes.pc_of_call hop
    rw [hi.head?_operandBytes (by simp [hop]), Option.some.injEq] at hhead
    exact ⟨r, hhead, hpc⟩

/-- Settles O35: the six instructions other than HLT, RET and CALL are the sequential ones, and they complete. -/
theorem sequentialAdvanceIsOperandCountPlusOne : Obligations.SequentialAdvanceIsOperandCountPlusOne := by
  intro i s t hhlt hret hcall hrun h ht
  obtain ⟨c, -, rfl⟩ | hdone := exec_fault_or_completes h
  · cases ht
  have hseq : i.sequential = true := by
    cases i with
    | hlt => exact absurd rfl hhlt
    | ret => exact absurd rfl hret
    | call a => exact absurd rfl (hcall a)
    | _ => rfl
  have hpc := hdone.toNat_pc hseq
  refine ⟨?_, ?_, ?_⟩
  · rw [hpc, length_encode, Nat.add_assoc, Nat.add_comm 1]
  · rintro ⟨a, b, rfl | rfl | rfl⟩ <;> exact hpc
  · rintro ⟨a, rfl | rfl | rfl⟩ <;> exact hpc

end Sys2Proof.Machine
end

section
/-! PROOF. Registers that an instruction does not read (10_state.md rule R22, the "Reads" column): what another value
in one changes in the fault table and in each completed instruction. -/

namespace Sys2Proof.Machine

/-- Only the rows of PUSH, POP, CALL and RET look at the stack. -/
theorem faultRows_congr {pc ir a b sp top sp' top' : Byte}
    (hir : ir ∉ ([0x45#8, 0x46#8, 0x50#8, 0x11#8] : List Byte)) :
    faultRows pc ir a b sp top = faultRows pc ir a b sp' top' := by
  simp only [List.mem_cons, List.not_mem_nil, or_false, not_or] at hir
  obtain ⟨hpush, hpop, hcall, hret⟩ := hir
  simp [faultRows, hpush, hpop, hcall, hret]

/-- The fault table reads one register, the stack pointer, and that for PUSH, POP, CALL and RET alone. -/
theorem tableFault_setReg {s : State} {q : Reg} (v : Byte)
    (hq : s.memRead s.pc ∈ ([0x45#8, 0x46#8, 0x50#8, 0x11#8] : List Byte) → q ≠ .r7) :
    tableFault (s.setReg q v) = tableFault s := by
  by_cases hstack : s.memRead s.pc ∈ ([0x45#8, 0x46#8, 0x50#8, 0x11#8] : List Byte)
  · have hsp : (s.setReg q v).reg .r7 = s.reg .r7 := s.reg_setReg_of_ne v (hq hstack).symm
    rw [tableFault, hsp]
    rfl
  · exact faultRows_congr hstack

/-- The ALU carries a register through that it does not name. -/
theorem alu_setReg (op : AluOp) {r p q : Reg} (s : State) (v : Byte) (hr : r ≠ q) (hp : p ≠ q) :
    alu op r p (s.setReg q v) = (alu op r p s).setReg q v := by
  rw [alu, alu, s.reg_setReg_of_ne v hr, s.reg_setReg_of_ne v hp, State.setReg_comm _ hr.symm]

/-- A push carries a register through that is not the stack pointer. -/
theorem State.pushed_setReg (s : State) {q : Reg} (hq : q ≠ .r7) (v w : Byte) :
    (s.setReg q v).pushed w = (s.pushed w).setReg q v := by
  rw [State.pushed, s.reg_setReg_of_ne v hq.symm, State.setReg_comm _ hq]
  rfl

/-- A load carries a register through that is neither its destination nor the stack pointer. -/
theorem State.loaded_setReg (s : State) {r q : Reg} (hq : q ≠ .r7) (hr : r ≠ q) (v : Byte) :
    (s.setReg q v).loaded r = (s.loaded r).setReg q v := by
  rw [State.loaded, s.reg_setReg_of_ne v hq.symm, State.setReg_memRead, State.setReg_comm _ hr.symm, ← State.loaded]

/-- So does the pop. -/
theorem State.popped_setReg (s : State) {r q : Reg} (hq : q ≠ .r7) (hr : r ≠ q) (v : Byte) :
    (s.setReg q v).popped r = (s.popped r).setReg q v := by
  rw [State.popped, s.loaded_setReg hq hr, State.reg_setReg_of_ne _ v hq.symm, State.setReg_comm _ hq, ← State.popped]

/-- A load overwrites its destination. -/
theorem State.loaded_setReg_same (s : State) {r : Reg} (hr : r ≠ .r7) (v : Byte) :
    (s.setReg r v).loaded r = s.loaded r := by
  rw [State.loaded, s.reg_setReg_of_ne v hr.symm, State.setReg_memRead, State.setReg_setReg_same, ← State.loaded]

section

variable {i : Instr} {s t : State} {q : Reg}

/-- An operand byte that is not the index of `q` names another register. -/
theorem ne_of_head?_ne {r : Reg} {bs : List Byte} (h : (r.index :: bs).head? ≠ some q.index) : r ≠ q :=
  fun hrq => h (congrArg (fun x => some (Reg.index x)) hrq)

/-- A completed instruction carries a register through that it does not name or use as its stack pointer. -/
theorem Completes.setReg_unread (h : Completes i s t) (v : Byte)
    (hsp : opcodeByte i ∈ ([0x45#8, 0x46#8, 0x50#8, 0x11#8] : List Byte) → q ≠ .r7)
    (hfirst : (operandBytes i).head? ≠ some q.index)
    (hsecond : opcodeByte i ∈ ([0xA2#8, 0xA0#8] : List Byte) → (operandBytes i)[1]? ≠ some q.index) :
    Completes i (s.setReg q v) (t.setReg q v) := by
  cases h with
  | @ldi _ r imm hpc =>
    have hdone := Completes.ldi (s := s.setReg q v) (r := r) (imm := imm) hpc
    rwa [State.setReg_comm _ (ne_of_head?_ne hfirst).symm] at hdone
  | @prn _ r hpc =>
    have hdone := Completes.prn (s := s.setReg q v) (r := r) hpc
    rwa [s.reg_setReg_of_ne v (ne_of_head?_ne hfirst)] at hdone
  | hlt => exact Completes.hlt (s := s.setReg q v)
  | @mul _ r p hpc =>
    have hdone := Completes.mul (s := s.setReg q v) (r := r) (q := p) hpc
    rwa [alu_setReg _ s v (ne_of_head?_ne hfirst)
      (ne_of_head?_ne (bs := []) (hsecond (by simp [opcodeByte])))] at hdone
  | @add _ r p hpc =>
    have hdone := Completes.add (s := s.setReg q v) (r := r) (q := p) hpc
    rwa [alu_setReg _ s v (ne_of_head?_ne hfirst)
      (ne_of_head?_ne (bs := []) (hsecond (by simp [opcodeByte])))] at hdone
  | @push _ r hroom hpc =>
    have hq : q ≠ .r7 := hsp (by simp [opcodeByte])
    have hreg : (s.setReg q v).reg .r7 = s.reg .r7 := s.reg_setReg_of_ne v hq.symm
    have hdone := Completes.push (s := s.setReg q v) (r := r) (by rwa [hreg]) hpc
    rwa [hreg, State.setReg_comm _ hq, State.reg_setReg_of_ne _ v (ne_of_head?_ne hfirst), s.pushed_setReg hq] at hdone
  | @pop _ r hv hpc =>
    have hq : q ≠ .r7 := hsp (by simp [opcodeByte])
    have hr : r ≠ q := ne_of_head?_ne hfirst
    have hdone := Completes.pop (s := s.setReg q v) (r := r)
      (by rwa [s.loaded_setReg hq hr, State.reg_setReg_of_ne _ v hq.symm]) hpc
    rwa [s.popped_setReg hq hr] at hdone
  | @call _ r hroom =>
    have hq : q ≠ .r7 := hsp (by simp [opcodeByte])
    have hreg : (s.setReg q v).reg .r7 = s.reg .r7 := s.reg_setReg_of_ne v hq.symm
    have hdone := Completes.call (s := s.setReg q v) (r := r) (by rwa [hreg])
    rwa [hreg, State.setReg_comm _ hq, State.reg_setReg_of_ne _ v (ne_of_head?_ne hfirst), s.pushed_setReg hq] at hdone
  | ret htop =>
    have hq : q ≠ .r7 := hsp (by simp [opcodeByte])
    have hreg : (s.setReg q v).reg .r7 = s.reg .r7 := s.reg_setReg_of_ne v hq.symm
    have hdone := Completes.ret (s := s.setReg q v) (by rwa [hreg])
    rwa [hreg, State.setReg_comm _ hq] at hdone

/-- LDI and POP overwrite their destination, whatever it held. -/
theorem Completes.setReg_overwritten (h : Completes i s t) (v : Byte)
    (hop : opcodeByte i ∈ ([0x82#8, 0x46#8] : List Byte))
    (hsp : opcodeByte i ∈ ([0x45#8, 0x46#8, 0x50#8, 0x11#8] : List Byte) → q ≠ .r7)
    (hfirst : (operandBytes i).head? = some q.index) : Completes i (s.setReg q v) t := by
  cases h with
  | @ldi _ r imm hpc =>
    obtain rfl : r = q := Reg.index_injective (Option.some.inj hfirst)
    have hdone := Completes.ldi (s := s.setReg r v) (r := r) (imm := imm) hpc
    rwa [State.setReg_setReg_same] at hdone
  | @pop _ r hv hpc =>
    obtain rfl : r = q := Reg.index_injective (Option.some.inj hfirst)
    have hq : r ≠ .r7 := hsp (by simp [opcodeByte])
    have hdone := Completes.pop (s := s.setReg r v) (r := r) (by rwa [s.loaded_setReg_same hq]) hpc
    rwa [State.popped, s.loaded_setReg_same hq, ← State.popped] at hdone
  | _ => simp [opcodeByte] at hop

/-- HLT and RET have no operand bytes. -/
theorem operandBytes_eq_nil (h : opcodeByte i ∈ ([0x01#8, 0x11#8] : List Byte)) : operandBytes i = [] := by
  cases i with
  | hlt | ret => rfl
  | _ => simp [opcodeByte] at h

end

/-- Settles O33: the fault table does not read the register, and the completed instruction carries it through or
overwrites it. -/
theorem unreadRegistersHaveNoInfluence : Obligations.UnreadRegistersHaveNoInfluence := by
  intro s t q v h hsp
  have htable : stepFault (s.setReg q v) = stepFault s := by
    rw [stepFault_eq_tableFault, stepFault_eq_tableFault, tableFault_setReg v hsp]
  obtain ⟨hrun, ⟨c, hc, rfl⟩ | ⟨i, hi⟩⟩ := step_fault_or_executes h
  · exact ⟨fun _ _ => step_of_stepFault hrun (htable.trans hc),
      fun _ _ hne => absurd (raise_run c s) hne⟩
  rw [← hi.opcodeByte_eq] at hsp ⊢
  refine ⟨fun hfirst hsecond => ?_, fun hop hfirst _ => ?_⟩
  · have hhead : (operandBytes i).head? ≠ some q.index := by
      by_cases hop : opcodeByte i ∈ ([0x01#8, 0x11#8] : List Byte)
      · simp [operandBytes_eq_nil hop]
      · rw [hi.head?_operandBytes hop]
        exact fun heq => hfirst hop (Option.some.inj heq)
    have hdone := hi.completes.setReg_unread v hsp hhead fun hop => by
      rw [hi.getElem?_operandBytes hop]
      exact fun heq => hsecond hop (Option.some.inj heq)
    exact Executes.step_eq ⟨hi.pc_le, hi.spelled, hdone⟩ hrun
  · have hoperand : ∀ ir ∈ ([0x82#8, 0x46#8] : List Byte), ir ∉ ([0x01#8, 0x11#8] : List Byte) := by decide
    have hdone := hi.completes.setReg_overwritten v hop hsp
      ((hi.head?_operandBytes (hoperand _ hop)).trans (congrArg some hfirst))
    exact Executes.step_eq ⟨hi.pc_le, hi.spelled, hdone⟩ hrun

end Sys2Proof.Machine
end

section
/-! PROOF. Frames (the Writes lines of rules R110 to R142): what each group of instructions leaves alone, from what a
completed instruction can write and what a fault cannot. -/

namespace Sys2Proof.Machine

section

variable {i : Instr} {s t : State}

/-- Instructions other than PUSH and CALL leave every cell. -/
theorem Completes.memRead_eq (h : Completes i s t) (hop : opcodeByte i ∉ ([0x45#8, 0x50#8] : List Byte)) (m : Byte) :
    t.memRead m = s.memRead m := by
  obtain hmem | ⟨hstore, -⟩ := h.mem_cases
  · exact congrArg (Memory.read · m.toNat) hmem
  · exact absurd hstore hop

/-- PUSH and CALL leave every cell but the one below the stack pointer. -/
theorem Completes.memRead_eq_of_ne (h : Completes i s t) (hm : s.mem.wf) {m : Byte} (hne : m ≠ s.reg .r7 - 1#8) :
    t.memRead m = s.memRead m := by
  obtain hmem | ⟨-, -, v, hmem⟩ := h.mem_cases
  · exact congrArg (Memory.read · m.toNat) hmem
  · calc t.memRead m = (s.memWrite (s.reg .r7 - 1#8) v).memRead m := congrArg (Memory.read · m.toNat) hmem
      _ = s.memRead m := by rw [State.memRead_memWrite hm, if_neg hne]

/-- Instructions other than PRN leave the output. -/
theorem Completes.out_eq (h : Completes i s t) (hop : opcodeByte i ≠ 0x47#8) : t.out = s.out := by
  obtain hout | ⟨r, rfl, -⟩ := h.out_cases
  · exact hout
  · exact absurd rfl hop

/-- A register that is neither a destination of the instruction nor its stack pointer keeps its value. -/
theorem Completes.reg_eq (h : Completes i s t) {q : Reg}
    (hdest : opcodeByte i ∈ ([0x82#8, 0xA2#8, 0xA0#8, 0x46#8] : List Byte) → (operandBytes i).head? ≠ some q.index)
    (hsp : opcodeByte i ∈ ([0x45#8, 0x46#8, 0x50#8, 0x11#8] : List Byte) → q ≠ .r7) : t.reg q = s.reg q := by
  obtain hreg | ⟨hop, hhead⟩ | ⟨hstack, hq⟩ := h.reg_cases q
  · exact hreg
  · exact absurd hhead (hdest hop)
  · exact absurd hq (hsp hstack)

/-- PUSH and CALL complete only where the stack has room. -/
theorem Completes.sp_ne_zero (h : Completes i s t) (hop : opcodeByte i ∈ ([0x45#8, 0x50#8] : List Byte)) :
    s.reg .r7 ≠ 0#8 := by
  cases h with
  | push hsp | call hsp => exact hsp
  | _ => simp [opcodeByte] at hop

end

/-- Settles O47: none of the three is among the instructions that write memory, emit, halt or use the stack. -/
theorem registerDestinationFrame : Obligations.RegisterDestinationFrame := by
  intro i a b s t hi h
  obtain ⟨c, -, rfl⟩ | hdone := exec_fault_or_completes h
  · exact ⟨fun q _ => raise_reg c s q, raise_memRead c s, raise_out c s, .inr ⟨c, rfl⟩⟩
  rcases hi with rfl | rfl | rfl
  all_goals exact ⟨fun q hq => hdone.reg_eq (by simpa [operandBytes] using fun _ => Ne.symm hq) (by simp [opcodeByte]),
    hdone.memRead_eq (by simp [opcodeByte]), hdone.out_eq (by simp [opcodeByte]), .inl (hdone.run_fault_eq nofun)⟩

/-- Settles O48: HLT halts and PRN emits, and neither writes a register or a cell. -/
theorem outputAndHaltFrame : Obligations.OutputAndHaltFrame := by
  rintro i a s t (rfl | rfl) h
  · obtain ⟨c, -, rfl⟩ | hdone := exec_fault_or_completes h
    · exact ⟨raise_reg c s, raise_memRead c s, nofun, fun _ => .inr ⟨c, rfl⟩⟩
    · cases hdone
      exact ⟨fun _ => rfl, fun _ => rfl, nofun, fun _ => .inl ⟨rfl, rfl⟩⟩
  · obtain rfl := execHlt_cases h
    exact ⟨s.halt_reg, s.halt_memRead, fun _ => ⟨rfl, rfl, rfl⟩, nofun⟩

/-- Settles O49: the one cell is at the address the push operation gives, and where it gives none the instruction cannot
complete. -/
theorem storingFrame : Obligations.StoringFrame := by
  intro i a s t hm hi h
  obtain ⟨c, -, rfl⟩ | hdone := exec_fault_or_completes h
  · exact ⟨fun q _ => raise_reg c s q, raise_out c s, fun _ _ m _ => raise_memRead c s m,
      fun _ _ m => raise_memRead c s m, .inr ⟨c, rfl⟩⟩
  have hslot {slot : Byte} (hslot : pushSlot s = .ok slot) : slot = s.reg .r7 - 1#8 := (pushSlot_ok.1 hslot).2
  rcases hi with rfl | rfl
  all_goals exact ⟨fun q hq => hdone.reg_eq (by simp [opcodeByte]) fun _ => hq, hdone.out_eq (by simp [opcodeByte]),
    fun slot hok m hne => hdone.memRead_eq_of_ne hm (hslot hok ▸ hne),
    fun c herr => absurd (pushSlot_error.1 herr).1 (hdone.sp_ne_zero (by simp [opcodeByte])),
    .inl (hdone.run_fault_eq nofun)⟩

/-- Settles O50: neither writes a cell or emits, and the registers are those of the table of writers. -/
theorem poppingFrame : Obligations.PoppingFrame := by
  intro i a s t hi h
  obtain ⟨c, -, rfl⟩ | hdone := exec_fault_or_completes h
  · exact ⟨fun q _ _ => raise_reg c s q, raise_memRead c s, raise_out c s, .inr ⟨c, rfl⟩⟩
  rcases hi with rfl | rfl
  · exact ⟨fun q hsp hq =>
        hdone.reg_eq (by simpa [operandBytes] using fun _ => Ne.symm (hq.resolve_left nofun)) fun _ => hsp,
      hdone.memRead_eq (by simp [opcodeByte]), hdone.out_eq (by simp [opcodeByte]), .inl (hdone.run_fault_eq nofun)⟩
  · exact ⟨fun q hsp _ => hdone.reg_eq (by simp [opcodeByte]) fun _ => hsp,
      hdone.memRead_eq (by simp [opcodeByte]), hdone.out_eq (by simp [opcodeByte]), .inl (hdone.run_fault_eq nofun)⟩

end Sys2Proof.Machine
end

section
/-! PROOF. The stack and the call protocol (44_stack.md rules R134, R135; 45_call_return.md rule R143; 20_memory.md
rule R68): what a stored byte is to the pop, the return and the fetch that follow. -/

namespace Sys2Proof.Machine

/-- PUSH with room on the stack leaves a pushed state; PUSH R7 pushes the decremented pointer (D11). -/
theorem exec_push_eq_pushed {r : Reg} {s : State} (hsp : s.reg .r7 ≠ 0#8) (hpc : s.pc.toNat ≤ 253) :
    exec (.push r.index) s =
      .next ((s.pushed (if r = .r7 then s.reg .r7 - 1#8 else s.reg r)).setPc (s.pc + 2#8)) :=
  (pushStoresTheRegister r r.index s).1 hsp hpc

theorem exec_push_of_ne {r : Reg} {s : State} (hr : r ≠ .r7) (hsp : s.reg .r7 ≠ 0#8) (hpc : s.pc.toNat ≤ 253) :
    exec (.push r.index) s = .next ((s.pushed (s.reg r)).setPc (s.pc + 2#8)) := by
  rw [exec_push_eq_pushed hsp hpc, if_neg hr]

theorem exec_pop_of_ne {r : Reg} {s : State} (hr : r ≠ .r7) (hsp : s.reg .r7 ≠ 255#8) (hpc : s.pc.toNat ≤ 253) :
    exec (.pop r.index) s = .next ((s.popped r).setPc (s.pc + 2#8)) :=
  exec_pop_index (by rwa [s.loaded_reg_sp_of_ne hr]) hpc

/-! ## Push, then pop -/

/-- A push of a register and a pop back into it leave every register as it was. -/
theorem State.popped_pushed_regs {s : State} (hm : s.mem.wf) {r : Reg} (hr : r ≠ .r7) (pc : Byte) :
    (((s.pushed (s.reg r)).setPc pc).popped r).regs = s.regs := by
  refine RegFile.ext_get fun q => ?_
  rw [State.regs_get, State.regs_get]
  by_cases hsp : q = .r7
  · rw [hsp, State.popped_reg_sp _ hr, State.setPc_reg, State.pushed_reg_sp, BitVec.sub_add_cancel]
  by_cases hq : q = r
  · rw [hq, State.popped_reg_same _ hr, State.setPc_reg, State.pushed_reg_sp, State.setPc_memRead,
      State.pushed_memRead hm, if_pos rfl]
  · rw [State.popped_reg_of_ne _ hsp hq, State.setPc_reg, State.pushed_reg_of_ne _ _ hsp]

/-- An instruction of one operand that stands at `pc` is the step. -/
theorem step_of_oneOperand {i : Instr} {a : Byte} {s : State} (hi : operandBytes i = [a]) (hrun : s.run = .running)
    (hpc : s.pc.toNat ≤ 253) (hop : s.memRead s.pc = opcodeByte i) (ha : s.memRead (s.pc + 1#8) = a) :
    step s = exec i s := by
  refine step_of_decodeWindow hrun hpc (hop ▸ windowDecode i _ _ ?_)
  rw [hi, ha]
  rfl

/-- Settles O51: the push does not reach the POP, which reads back the byte just stored. -/
theorem pushThenPopRestores : Obligations.PushThenPopRestores := by
  intro r s hm hrun hr hsp hpc hpush hpushReg hpop hpopReg hne hneReg
  have hread (m : Byte) : ((s.pushed (s.reg r)).setPc (s.pc + 2#8)).memRead m =
      if m = s.reg .r7 - 1#8 then s.reg r else s.memRead m := State.pushed_memRead hm _ m
  refine ⟨(s.pushed (s.reg r)).setPc (s.pc + 2#8),
    (((s.pushed (s.reg r)).setPc (s.pc + 2#8)).popped r).setPc (s.pc + 2#8 + 2#8), ?_, ?_,
    State.popped_pushed_regs hm hr _, BitVec.add_assoc s.pc 2#8 2#8, hrun, rfl, rfl, hread⟩
  · exact (step_of_oneOperand (i := .push r.index) rfl hrun (by omega) hpush hpushReg).trans
      (exec_push_of_ne hr hsp (by omega))
  · have hnext : s.pc + 2#8 + 1#8 = s.pc + 3#8 := BitVec.add_assoc s.pc 2#8 1#8
    have hop : ((s.pushed (s.reg r)).setPc (s.pc + 2#8)).memRead (s.pc + 2#8) = 0x46#8 := by
      rw [hread, if_neg hne.symm, hpop]
    have hoperand : ((s.pushed (s.reg r)).setPc (s.pc + 2#8)).memRead (s.pc + 2#8 + 1#8) = r.index := by
      rw [hread, hnext, if_neg hneReg.symm, hpopReg]
    have hpc' : (s.pc + 2#8).toNat ≤ 253 := by bv_omega
    exact (step_of_oneOperand (s := (s.pushed (s.reg r)).setPc (s.pc + 2#8)) (i := .pop r.index) rfl hrun hpc' hop
      hoperand).trans (exec_pop_of_ne hr (by simp; bv_omega) hpc')

/-- Two pushes, read from the top: the second value, and above it the first. -/
theorem State.pushed_pushed_memRead {s : State} (hm : s.mem.wf) (pc x y : Byte) :
    (((s.pushed x).setPc pc).pushed y).memRead (s.reg .r7 - 1#8 - 1#8) = y ∧
      (((s.pushed x).setPc pc).pushed y).memRead (s.reg .r7 - 1#8) = x := by
  have hm' : ((s.pushed x).setPc pc).mem.wf := State.pushed_wf hm x
  have hbelow : s.reg .r7 - 1#8 ≠ s.reg .r7 - 1#8 - 1#8 := by bv_omega
  simp [State.pushed_memRead hm', State.pushed_memRead hm, hbelow]

/-- Settles O53: the first pop reads the cell of the second push, and the second pop that of the first. -/
theorem lastPushedIsFirstPopped : Obligations.LastPushedIsFirstPopped := by
  intro p q r v s hm hp hq hr hv hrv hsp hpc
  obtain ⟨hsecond, hfirst⟩ := State.pushed_pushed_memRead hm (s.pc + 2#8) (s.reg p) (s.reg q)
  refine ⟨_, _, _, _, exec_push_of_ne hp (by bv_omega) (by omega),
    exec_push_of_ne hq (by simp; bv_omega) (by simp; bv_omega),
    exec_pop_of_ne hr (by simp; bv_omega) (by simp; bv_omega),
    exec_pop_of_ne hv (by simp [State.popped_reg_sp _ hr]; bv_omega) (by simp; bv_omega), ?_, ?_, ?_⟩
  · simp [State.popped_reg_of_ne _ hr hrv, State.popped_reg_same _ hr, State.pushed_reg_of_ne _ _ hq, hsecond]
  · simp [State.popped_reg_same _ hv, State.popped_reg_sp _ hr, State.pushed_reg_of_ne _ _ hq, hfirst]
  · simp [State.popped_reg_sp _ hr, State.popped_reg_sp _ hv]

/-! ## Call, then return -/

/-- What CALL leaves on the stack: the return address, under a stack pointer one less. -/
theorem Completes.call_pushes {i : Instr} {s t : State} (h : Completes i s t) (hop : opcodeByte i = 0x50#8)
    (hm : s.mem.wf) :
    s.reg .r7 ≠ 0#8 ∧ t.reg .r7 = s.reg .r7 - 1#8 ∧ t.memRead (t.reg .r7) = s.pc + 2#8 := by
  cases h with
  | call hsp =>
    have hreg := s.pushed_reg_sp (s.pc + 2#8)
    refine ⟨hsp, hreg, ?_⟩
    exact (State.pushed_memRead hm _ _).trans (if_pos hreg)
  | _ => simp [opcodeByte] at hop

/-- Settles O52: the RET pops the address that the CALL pushed, which stands where the subroutine left it. -/
theorem returnResumesAfterTheCall : Obligations.ReturnResumesAfterTheCall := by
  intro s t u k hm hcall hstep hrun _ hurun hupc hret husp hutop
  obtain ⟨-, ⟨c, -, rfl⟩ | ⟨i, hi⟩⟩ := step_fault_or_executes hstep
  · cases hrun
  obtain ⟨hsp, htsp, htop⟩ := hi.completes.call_pushes (hi.opcodeByte_eq.trans hcall) hm
  have hpc := hi.pc_le
  have hstepRet : step u = exec .ret u :=
    step_of_decodeWindow hurun hupc (by rw [hret]; exact Laws.WindowDecode.ret _ _ rfl)
  refine ⟨_, hstepRet.trans (exec_ret_of_sp_ne (by bv_omega)), hurun, ?_, ?_⟩
  · rw [State.setPc_pc, hutop, htop]
    bv_omega
  · rw [State.setPc_reg, State.reg_setReg_same, husp, htsp, BitVec.sub_add_cancel]

/-! ## A store, then the next fetch -/

/-- A fetch that does not fault reads the three bytes from `pc` on. -/
theorem eq_of_fetch_ok {s : State} {f : Fetched} (h : fetch s = .ok f) :
    f = ⟨s.memRead s.pc, s.memRead (s.pc + 1#8), s.memRead (s.pc + 2#8)⟩ := by
  rw [fetch_eq] at h
  split at h
  · cases h
  · exact (Except.ok.inj h).symm

/-- Settles O54: both instructions leave the stored byte in the cell below the old stack pointer, which the fetch
reads. -/
theorem storesReachTheNextFetch : Obligations.StoresReachTheNextFetch := by
  intro r s t f v hm hsp hpc hstore hfetch
  have hcell : t.memRead (s.reg .r7 - 1#8) = v := by
    obtain ⟨h, rfl⟩ | ⟨h, rfl⟩ := hstore
    · rw [exec_push_eq_pushed hsp hpc] at h
      cases h
      exact (State.pushed_memRead hm _ _).trans (if_pos rfl)
    · rw [exec_call_index hsp] at h
      cases h
      exact (State.pushed_memRead hm _ _).trans (if_pos rfl)
  rw [eq_of_fetch_ok hfetch]
  refine ⟨fun h => ?_, fun h => ?_, fun h => ?_⟩
  all_goals exact (congrArg t.memRead h).trans hcell

end Sys2Proof.Machine
end

section
/-! PROOF. The image tokens (30_encoding.md rules R87, R88): the value of base-2 digits, and that a refused token
refuses the image text it stands in. -/

namespace Sys2Proof.Machine

/-- The digit a character stands for, where it is 0 or 1. -/
def digitOf (c : Char) : Nat := if c = '1' then 1 else 0

/-- The value of base-2 digits, most significant first. -/
def tokenValue (token : List Char) : Nat := Nat.ofDigits 2 (token.reverse.map digitOf)

theorem tokenValue_cons (c : Char) (cs : List Char) :
    tokenValue (c :: cs) = digitOf c * 2 ^ cs.length + tokenValue cs := by
  simp [tokenValue, Nat.ofDigits_append]
  ring

theorem digitsValue_cons {c : Char} (hc : c = '0' ∨ c = '1') (acc : Nat) (cs : List Char) :
    digitsValue acc (c :: cs) = digitsValue (2 * acc + digitOf c) cs := by
  obtain rfl | rfl := hc <;> rfl

/-- The reader of digits gives their value, above the accumulated one. -/
theorem digitsValue_of_binary {token : List Char} (h : ∀ c ∈ token, c = '0' ∨ c = '1') (acc : Nat) :
    digitsValue acc token = some (acc * 2 ^ token.length + tokenValue token) := by
  induction token generalizing acc with
  | nil => simp [digitsValue, tokenValue]
  | cons c cs ih =>
    obtain ⟨hc, hcs⟩ := List.forall_mem_cons.1 h
    rw [digitsValue_cons hc, ih hcs, tokenValue_cons, List.length_cons]
    congr 1
    ring

/-- The reader stops at any other character. -/
theorem digitsValue_of_not_binary {token : List Char} (h : ∃ c ∈ token, c ≠ '0' ∧ c ≠ '1') (acc : Nat) :
    digitsValue acc token = none := by
  induction token generalizing acc with
  | nil => simp at h
  | cons c cs ih =>
    by_cases hc : c = '0' ∨ c = '1'
    · have hcs : ∃ d ∈ cs, d ≠ '0' ∧ d ≠ '1' := by
        obtain ⟨d, hd, hd0, hd1⟩ := h
        refine ⟨d, (List.mem_cons.1 hd).resolve_left ?_, hd0, hd1⟩
        rintro rfl
        exact hc.elim hd0 hd1
      rw [digitsValue_cons hc, ih hcs]
    · obtain ⟨hc0, hc1⟩ := not_or.1 hc
      rw [digitsValue, if_neg hc0, if_neg hc1]

/-- Eight digits spell at most 255. -/
theorem tokenValue_lt (token : List Char) : tokenValue token < 2 ^ token.length := by
  have hdigit : ∀ d ∈ token.reverse.map digitOf, d < 2 := by
    intro d hd
    obtain ⟨c, -, rfl⟩ := List.mem_map.1 hd
    unfold digitOf
    split <;> decide
  simpa [tokenValue] using Nat.ofDigits_lt_base_pow_length (by decide) hdigit

/-- What a token with digits alone stands for. -/
theorem parseToken_of_binary {token : List Char} (hne : token ≠ []) (h : ∀ c ∈ token, c = '0' ∨ c = '1') :
    parseToken token =
      if 255 < tokenValue token then .error .valueTooWide
      else if token.length = 8 ∨ Config.acceptsDigitCount token.length then .ok (BitVec.ofNat 8 (tokenValue token))
      else .error .digitCount := by
  cases token with
  | nil => exact absurd rfl hne
  | cons c cs => simp only [parseToken, digitsValue_of_binary h, Nat.zero_mul, Nat.zero_add]

theorem parseToken_of_not_binary {token : List Char} (h : ∃ c ∈ token, c ≠ '0' ∧ c ≠ '1') :
    parseToken token = .error .nonBinaryToken := by
  cases token with
  | nil => rfl
  | cons c cs => simp only [parseToken, digitsValue_of_not_binary h]

/-- A refused token refuses the lines it is among; which of several errors is named is the first (log 25). -/
theorem parseImage_of_refused {lines : List ImageLine} {token : List Char} {e : LoadError}
    (hmem : .significant token ∈ lines) (h : parseToken token = .error e) : ∃ e', parseImage lines = .error e' := by
  induction lines with
  | nil => cases hmem
  | cons l ls ih =>
    cases l with
    | skipped => exact ih ((List.mem_cons.1 hmem).resolve_left nofun)
    | significant token' =>
      rw [parseImage]
      cases ht : parseToken token' with
      | error e' => exact ⟨e', rfl⟩
      | ok v =>
        have hls : .significant token ∈ ls := by
          refine (List.mem_cons.1 hmem).resolve_left ?_
          rintro ⟨⟩
          rw [h] at ht
          cases ht
        obtain ⟨e', he⟩ := ih hls
        exact ⟨e', by rw [he]; rfl⟩

/-- Settles O4: the value of the digits decides what a token stands for, and a refused token starts nothing. -/
theorem imageTokensAreReadOrRefused : Obligations.ImageTokensAreReadOrRefused := by
  refine ⟨fun token hlen h => ?_, fun token h => parseToken_of_not_binary h, fun token h hwide => ?_,
    fun lines token e hmem h => ?_⟩
  · have hfits : tokenValue token < 2 ^ 8 := hlen ▸ tokenValue_lt token
    rw [parseToken_of_binary (by rintro rfl; cases hlen) h, if_neg (by omega), if_pos (.inl hlen)]
    rfl
  · rw [parseToken_of_binary (by rintro rfl; simp at hwide) h]
    exact if_pos hwide
  · obtain ⟨e', he⟩ := parseImage_of_refused hmem h
    exact ⟨e', by rw [bootText, he]; rfl⟩

end Sys2Proof.Machine
end
